-- ==== Sys2Proof/Word.lean ====
section
/-! DEFINITION. The word types of the block: a frame byte, a nibble, a command word, a line word, a frame address. -/
namespace Sys2Proof

/-- A byte, bits 7 to 0 (spec/00_scope.md R8). -/
abbrev Byte := BitVec 8

/-- A nibble, "a 4-bit half of a byte" (spec/00_scope.md R8). -/
abbrev Nibble := BitVec 4

/-- The command word `cmd_data[63:0]` (spec/30_encoding.md R70). -/
abbrev CommandWord := BitVec 64

/-- The model's word for a row of the opcode table in the formats `symbol` and `line` (spec/30_encoding.md R87 (b), (c)):
bits 15:0 are the row's encoding string, bit `j` its `j`-th character in time order; bits 23:16 are a kind tag of the model's
own, 0 where the pattern alone names the row. DESIGN CHOICE, assumption 4. -/
abbrev LineWord := BitVec 24

/-- An address of the frame buffer, 0 to 8 (spec/20_memory.md R50): an out-of-range address cannot be formed. -/
abbrev FrameAddr := Fin 9

end Sys2Proof
end

