-- ==== Sys2Proof/Config.lean ====
section
/-! DEFINITION. What is fixed for the machine: the protocol constants of spec/00_scope.md R5, the implementation parameters of
R6, the rounding parameter of R7, the reset contents of a frame byte, and the free values of spec/42_message_builder.md R143. -/
namespace Sys2Proof.Config

/-- `T_US`: the base interval T in microseconds (R5). -/
def tUs : Nat := 512
/-- `TWO_T` (R5). -/
def twoT : Nat := 1024
/-- `BIT_US`: the duration of one symbol (R5). -/
def bitUs : Nat := 2048
/-- `GAP_US`: the inter-frame gap (R5). -/
def gapUs : Nat := 8192
/-- `PRE_BITS`: the preamble's length in symbols (R5). -/
def preBits : Nat := 16
/-- `POST_BITS_T`: the postamble's length, temperature-only (R5). -/
def postBitsT : Nat := 4
/-- `POST_BITS_TH`: the postamble's length, humidity variant (R5). -/
def postBitsTH : Nat := 8
/-- `FLEN_T`: the frame's length in bytes, temperature-only (R5). -/
def flenT : Nat := 8
/-- `FLEN_TH`: the frame's length in bytes, humidity variant (R5). -/
def flenTH : Nat := 9
/-- `TYPE_T`, as the two bytes stored (R5; the order is spec/20_memory.md R51). -/
def typeT : Byte × Byte := (0xEA#8, 0x4C#8)
/-- `TYPE_TH`, as the two bytes stored (R5; the order is spec/20_memory.md R51). -/
def typeTH : Byte × Byte := (0x1A#8, 0x2D#8)
/-- `CK_BIAS`: the "protocol-defined checksum bias" (R5). -/
def ckBias : BitVec 16 := 0x0A#16
/-- `CK_N_T`: the bytes nibble-summed, temperature-only (R5). -/
def ckNT : Nat := 6
/-- `CK_N_TH`: the bytes nibble-summed, humidity variant (R5). -/
def ckNTH : Nat := 8
/-- `BATT_OK` (R5). -/
def battOk : Byte := 0x00#8
/-- `BATT_LOW` (R5). -/
def battLow : Byte := 0x0C#8
/-- `SIGN_NEG`: the temperature sign bit of byte 6 (R5). -/
def signNeg : Byte := 0x08#8
/-- `COPIES`: "two identical back-to-back frames" (R5). -/
def copies : Nat := 2

/-- `FRAME_BYTES`: the bytes physically present in the frame buffer in both variants (R6). -/
def frameBytes : Nat := 9
/-- The reset contents of every frame byte (spec/10_state.md R21, R39): what an address that the memory does not list reads as
(assumption 11). -/
def resetByte : Byte := 0x00#8

/-- The bound `2^20` on the magnitude under which the temperature digits are defined (spec/42_message_builder.md R140, R143). -/
def tempBound : Nat := 2 ^ 20

/-- The two defined instances of `NUM.rnd` (R7, R12). -/
inductive Rounding where
  /-- `rnd_b32`: each intermediate result rounded to binary32. -/
  | b32
  /-- `rnd_exact`: the identity. -/
  | exact
  deriving DecidableEq, Repr

/-- `NUM.rnd` at its decided value, `rnd_b32` (R7; spec/92_eei_decisions.md D6; assumption 8). The operations that round take the
instance as an argument, so a statement can be made for both. -/
def numRnd : Rounding := .b32

/-- `NONFINITE`, the byte `F[5]` of a send whose temperature operand is outside the numeric range: "any value"
(spec/42_message_builder.md R143). A free value: no body, one for each draw (assumption 7). -/
opaque freeDigits : Nat → Byte

/-- `NONFINITE`, the tenths nibble `hi(F[4])` of such a send: "any value" (spec/42_message_builder.md R143). A free value: no body,
one for each draw (assumption 7). -/
opaque freeTenths : Nat → Nibble

end Sys2Proof.Config
end

