-- ==== Sys2Proof/Syntax.lean ====
section
/-! DEFINITION. The instructions: one constructor per row of spec/opcode_table.json (spec/30_encoding.md R87). Eight rows are
host commands (spec/44_commands.md), eight are operations of the bit encoder and of the sequencer (spec/40_bitencoder.md,
spec/43_tx_sequencer.md). -/
namespace Sys2Proof

/-- One constructor per row of spec/opcode_table.json. Operands are the fields' contents unchanged (spec/30_encoding.md R72). -/
inductive Instr where
  /-- `NOP` (R191). -/
  | nop
  /-- `CONFIGURE pin, channel, id, hc` (R192). -/
  | configure (pin channel ident : Byte) (hc : Bool)
  /-- `SET_PIN pin` (R193). -/
  | setPin (pin : Byte)
  /-- `SET_HC hc` (R194). -/
  | setHc (hc : Bool)
  /-- `SET_IDCH id, channel` (R195). -/
  | setIdch (ident channel : Byte)
  /-- `SEND hum, temp, bok` (R196, R197). -/
  | send (hum : Byte) (temp : BitVec 32) (bok : Bool)
  /-- `RESERVED_6_7`: the reserved opcodes `0x6` and `0x7`; `op` is the opcode (R198). -/
  | reserved67 (op : BitVec 4)
  /-- `RESERVED_8_F`: the reserved opcodes `0x8` to `0xF`; `op` is the opcode (R198). -/
  | reserved8F (op : BitVec 4)
  /-- `ZERO`: the symbol of bit 0 (R100). -/
  | zero
  /-- `ONE`: the symbol of bit 1 (R101). -/
  | one
  /-- `NIBBLE_LO(v)`: the low nibble of the byte `v`, least-significant bit first (R103). -/
  | nibbleLo (v : Byte)
  /-- `NIBBLE_HI(v)`: the high nibble of the byte `v`, least-significant bit first (R104). -/
  | nibbleHi (v : Byte)
  /-- `BYTE(v)`: the low nibble, then the high nibble (R105). -/
  | byte (v : Byte)
  /-- `PREAMBLE`: sixteen ONEs (R161). -/
  | preamble
  /-- `POSTAMBLE_T`: the postamble of variant T, four ZEROs (R164). -/
  | postambleT
  /-- `POSTAMBLE_TH`: the postamble of variant TH, eight ZEROs (R164). -/
  | postambleTH
  deriving DecidableEq, Repr

end Sys2Proof
end

