-- ==== Sys2Proof/WellFormed.lean ====
section
/-! DEFINITION. Which terms of `Instr` an encoding of the spec can stand for. -/
namespace Sys2Proof

/-- An instruction is well formed where its operands are what its row of the opcode table can carry: a reserved opcode in the
row's range (spec/30_encoding.md R71, R87); for NIBBLE_LO and NIBBLE_HI, whose rows carry four bits of the operand byte, the
other nibble 0 (R87 (c)). Every other operand fills its field exactly (R70, R72). -/
def Instr.wellFormed : Instr → Bool
  | .nop => true
  | .configure _ _ _ _ => true
  | .setPin _ => true
  | .setHc _ => true
  | .setIdch _ _ => true
  | .send _ _ _ => true
  | .reserved67 op => op == 0x6#4 || op == 0x7#4
  | .reserved8F op => decide (8 ≤ op.toNat)
  | .zero => true
  | .one => true
  | .nibbleLo v => v.extractLsb' 4 4 == 0#4
  | .nibbleHi v => v.extractLsb' 0 4 == 0#4
  | .byte _ => true
  | .preamble => true
  | .postambleT => true
  | .postambleTH => true

end Sys2Proof
end

