-- ==== Sys2Proof/Decode.lean ====
section
/-! DEFINITION. The decoder, total and rejecting by name, and the encoder, both written from spec/30_encoding.md R70 to R73, R87
and spec/opcode_table.json. -/
namespace Sys2Proof

/-- What is fetched: a command word from the command port (R70), or a line word, the model's word for a row of the formats
`symbol` and `line` (R87 (b), (c); assumption 4). -/
inductive FetchWord where
  | command (w : CommandWord)
  | line (w : LineWord)
  deriving DecidableEq, Repr

/-- Why a word is no instruction. No command word is rejected: every opcode has a meaning (R71, R73). Only the model's line words
(assumption 4) can be. -/
inductive DecodeError where
  /-- A line word whose kind tag names no row. -/
  | unknownKind
  /-- A line word whose pattern is not the pattern, or not an instance of the pattern, of the row that its kind tag names. -/
  | notTheRowsPattern
  deriving DecidableEq, Repr

/-! ### Fields of the command word (R70) -/

/-- `OP`, bits 63:60. -/
def fieldOp (w : CommandWord) : BitVec 4 := w.extractLsb' 60 4
/-- `A`, bits 59:52: `pin` or `hum`. -/
def fieldA (w : CommandWord) : Byte := w.extractLsb' 52 8
/-- `B`, bits 51:44: `channel`. -/
def fieldB (w : CommandWord) : Byte := w.extractLsb' 44 8
/-- `C`, bits 43:36: `id`. -/
def fieldC (w : CommandWord) : Byte := w.extractLsb' 36 8
/-- `FLAG`, bit 32: `hc` or `bok`. -/
def fieldFlag (w : CommandWord) : Bool := w.getLsbD 32
/-- `TEMP`, bits 31:0: `temp`. -/
def fieldTemp (w : CommandWord) : BitVec 32 := w.extractLsb' 0 32

/-- The opcode map (R71). Bits 35:33 and every field a command does not use are ignored (R73); no opcode is rejected. -/
def decodeCommand (w : CommandWord) : Instr :=
  match (fieldOp w).toNat with
  | 0 => .nop
  | 1 => .configure (fieldA w) (fieldB w) (fieldC w) (fieldFlag w)
  | 2 => .setPin (fieldA w)
  | 3 => .setHc (fieldFlag w)
  | 4 => .setIdch (fieldC w) (fieldB w)
  | 5 => .send (fieldA w) (fieldTemp w) (fieldFlag w)
  | 6 => .reserved67 (fieldOp w)
  | 7 => .reserved67 (fieldOp w)
  | _ => .reserved8F (fieldOp w)

/-! ### Line words (R87 (b), (c); assumption 4) -/

/-- The pattern of a line word: bit `j` is the `j`-th character of the row's encoding string, in time order. -/
def linePattern (w : LineWord) : BitVec 16 := w.extractLsb' 0 16
/-- The kind tag of a line word. -/
def lineKind (w : LineWord) : Byte := w.extractLsb' 16 8

/-- The rows of the formats `symbol` and `line`. Under kind 0 the pattern alone names a row: `1001` is ZERO, `0110` ONE, sixteen
`1` PREAMBLE, all `0` POSTAMBLE_TH. The rows with an operand and POSTAMBLE_T, whose patterns would coincide with others, have
kinds of their own; the operand's bits stand where the row's letters stand. -/
def decodeLine (w : LineWord) : Except DecodeError Instr :=
  let p := linePattern w
  match (lineKind w).toNat with
  | 0 =>
    if p = 0x0009#16 then .ok .zero
    else if p = 0x0006#16 then .ok .one
    else if p = 0xFFFF#16 then .ok .preamble
    else if p = 0x0000#16 then .ok .postambleTH
    else .error .notTheRowsPattern
  | 1 => if p.toNat < 16 then .ok (.nibbleLo (0#4 ++ p.extractLsb' 0 4)) else .error .notTheRowsPattern
  | 2 => if p.toNat < 16 then .ok (.nibbleHi (p.extractLsb' 0 4 ++ 0#4)) else .error .notTheRowsPattern
  | 3 => if p.toNat < 256 then .ok (.byte (p.extractLsb' 0 8)) else .error .notTheRowsPattern
  | 4 => if p = 0x0000#16 then .ok .postambleT else .error .notTheRowsPattern
  | _ => .error .unknownKind

/-- The decoder. -/
def decode : FetchWord → Except DecodeError Instr
  | .command w => .ok (decodeCommand w)
  | .line w => decodeLine w

/-! ### The encoder -/

/-- A command word from its fields; the reserved bits 35:33 are assembled as 0 (R70, R85). -/
def commandWord (op : BitVec 4) (a b c : Byte) (flag : Bool) (temp : BitVec 32) : CommandWord :=
  op ++ a ++ b ++ c ++ 0#3 ++ BitVec.ofBool flag ++ temp

/-- A line word from its kind tag and its pattern. -/
def lineWord (kind : Byte) (pattern : BitVec 16) : LineWord := kind ++ pattern

/-- The word of an instruction; every unused field is assembled as 0 (R85). -/
def encode : Instr → FetchWord
  | .nop => .command (commandWord 0x0#4 0 0 0 false 0)
  | .configure pin channel ident hc => .command (commandWord 0x1#4 pin channel ident hc 0)
  | .setPin pin => .command (commandWord 0x2#4 pin 0 0 false 0)
  | .setHc hc => .command (commandWord 0x3#4 0 0 0 hc 0)
  | .setIdch ident channel => .command (commandWord 0x4#4 0 channel ident false 0)
  | .send hum temp bok => .command (commandWord 0x5#4 hum 0 0 bok temp)
  | .reserved67 op => .command (commandWord op 0 0 0 false 0)
  | .reserved8F op => .command (commandWord op 0 0 0 false 0)
  | .zero => .line (lineWord 0 0x0009#16)
  | .one => .line (lineWord 0 0x0006#16)
  | .nibbleLo v => .line (lineWord 1 (0#12 ++ v.extractLsb' 0 4))
  | .nibbleHi v => .line (lineWord 2 (0#12 ++ v.extractLsb' 4 4))
  | .byte v => .line (lineWord 3 (0#8 ++ v))
  | .preamble => .line (lineWord 0 0xFFFF#16)
  | .postambleT => .line (lineWord 4 0x0000#16)
  | .postambleTH => .line (lineWord 0 0x0000#16)

/-! ### The opcode table's words, as numbers -/

/-- A word of the opcode table as what is fetched: 64 bits are a command word, at most 24 a line word. -/
def tableWord (nbits w : Nat) : Option FetchWord :=
  if nbits = 64 then (if w < 2 ^ 64 then some (.command (BitVec.ofNat 64 w)) else none)
  else if nbits ≤ 24 then (if w < 2 ^ 24 then some (.line (BitVec.ofNat 24 w)) else none)
  else none

/-- The instruction that the decoder reads from a word of the opcode table. -/
def decodeTableWord (nbits w : Nat) : Option Instr :=
  match tableWord nbits w with
  | none => none
  | some f =>
    match decode f with
    | .ok i => some i
    | .error _ => none

end Sys2Proof
end

