-- ==== Sys2Proof/Machine/State.lean ====
section
/-! DEFINITION. The state (spec/10_state.md R20: 110 bits in ten registers, and the model's own fields), the ways a step can stop,
and the state after reset. -/
namespace Sys2Proof.Machine

/-- The frame buffer `F[0..8]` (R21), the only memory (spec/20_memory.md R50): the bytes that differ from what an unlisted
address reads as, `Config.resetByte`, by rising address. `Memory.wf` (Machine/Ops.lean) is the canonical form. -/
structure Memory where
  cells : List Host.Cell
  deriving DecidableEq, Repr

/-- `PHASE`, the sequencer's phase (R26). The unused codes 6 and 7 are no value of this type
(spec/93_implementation_defined.md U4; assumption 10). `Phase.code` (Machine/Flags.lean) gives the encoding. -/
inductive Phase where
  | idle | preamble | payload | postamble | gap | done
  deriving DecidableEq, Repr

/-- An event of the trace (spec/00_scope.md R11): `H` for `SetHigh()`, `L` for `SetLow()`, `W d` for `Wait(d)`, `d` in ticks. -/
inductive Event where
  | H | L
  | W (d : Nat)
  deriving DecidableEq, Repr

/-- The levels of the input ports at one clock edge (R34): `rst`, `tick_us`, `cmd_valid`, `cmd_data[63:0]`. -/
structure Inputs where
  rst : Bool
  tickUs : Bool
  cmdValid : Bool
  cmdData : CommandWord
  deriving DecidableEq, Repr

/-- The state. The first ten fields are the architectural state, whole (R20); the last four are the model's own. -/
structure State where
  /-- `F[0..8]`, the frame buffer (R21). -/
  mem : Memory
  /-- `HC`, 1 for variant TH (R22). -/
  hc : Bool
  /-- `CFG`, the configured flag (R24). -/
  cfg : Bool
  /-- `PINSEL`, the opaque pin selector (R25). -/
  pinsel : Byte
  /-- `PHASE` (R26). -/
  phase : Phase
  /-- `REP`, 0 for the first copy, 1 for the duplicate (R27). -/
  rep : Bool
  /-- `BITCNT`, the symbol within the phase (R28). -/
  bitcnt : BitVec 7
  /-- `SEG`, the next segment within the symbol (R29). The unreachable value 3 is no value of the type
  (spec/93_implementation_defined.md U4). -/
  seg : Fin 3
  /-- `TMR`, the ticks left in the segment (R30). -/
  tmr : BitVec 14
  /-- `TX`, the level driven (R31). -/
  tx : Bool
  /-- The MODEL's: the trace, oldest event first; "not hardware state; it is the model's record of what the hardware did"
  (spec/00_scope.md R11; assumption 2). -/
  trace : List Event
  /-- The MODEL's: how many free values have been drawn (spec/42_message_builder.md R143; assumption 7). -/
  draws : Nat
  /-- The MODEL's: the input ports' levels, the head at the coming clock edge and the tail at the edges after it (assumption 1). -/
  inputs : List Inputs
  /-- The MODEL's: an operation of the opcode table's line or symbol rows invoked by itself; no command and no step of the
  machine sets it (assumption 3). -/
  encoderCall : Option LineWord
  deriving DecidableEq, Repr

/-- Why a step faults. The hardware itself raises nothing (spec/60_exceptions.md R210): there is no other constructor. -/
inductive Fault where
  /-- Raised by `step` in a state that is "not a state of the machine" because its sequencer position is impossible: `BITCNT`
  beyond the phase's range, `TMR` above 8192, or a send in flight with `CFG = 0`; the spec says to treat the sequencer as `stuck`
  (spec/93_implementation_defined.md U4). Safe: no such state is reachable from reset. -/
  | sequencerStuck
  deriving DecidableEq, Repr

/-- Why a step is refused. -/
inductive Refusal where
  /-- Raised by `exec` for an instruction with no meaning yet; no arm does. Safe. -/
  | notModelled (mnemonic : String)
  /-- Raised by `step` for a line word that stands for no row of the opcode table (assumption 4). No command word is refused.
  Safe: `encoderCall` is the model's own, and no hardware run sets it. -/
  | undecodable (e : DecodeError)
  deriving DecidableEq, Repr

/-- The state after reset: "every bit of the state of rule R20 is 0" (R39; spec/70_reset_and_hazards.md R231). The model's own
fields are empty (assumption 13). -/
def State.reset : State where
  mem := ⟨[]⟩
  hc := false
  cfg := false
  pinsel := 0x00#8
  phase := .idle
  rep := false
  bitcnt := 0#7
  seg := 0
  tmr := 0#14
  tx := false
  trace := []
  draws := 0
  inputs := []
  encoderCall := none

end Sys2Proof.Machine
end

