-- ==== Sys2Proof/Machine/Ops.lean ====
section
/-! DEFINITION. The named operations over the frame buffer, the output primitives and the input ports. There is no operation that
takes an exception and none that returns from one: "Trap entry: does not exist" (spec/60_exceptions.md R213, R214). -/
namespace Sys2Proof.Machine

/-! ### Bits and nibbles (spec/00_scope.md R8) -/

/-- `lo(b) = b[3:0]`. -/
def lo (b : Byte) : Nibble := b.extractLsb' 0 4

/-- `hi(b) = b[7:4]`. -/
def hi (b : Byte) : Nibble := b.extractLsb' 4 4

/-- The byte with high nibble `h` and low nibble `l`, `{h, l}`. -/
def pack (h l : Nibble) : Byte := h ++ l

/-! ### The frame buffer (spec/20_memory.md R54) -/

/-- The value listed at address `a`, else what an unlisted address reads as. -/
def lookup (a : Nat) : List Host.Cell → Byte
  | [] => Config.resetByte
  | c :: cs => if c.1 = a then c.2 else lookup a cs

/-- The cells with the cell `(a, v)` put in before the first cell of a higher address. -/
def insertCell (a : Nat) (v : Byte) : List Host.Cell → List Host.Cell
  | [] => [(a, v)]
  | c :: cs => if a < c.1 then (a, v) :: c :: cs else c :: insertCell a v cs

/-- The cells after `F[a] <- v`: the cells of the other addresses, and a cell of address `a` unless `v` is what an unlisted
address reads as. -/
def storeCell (a : Nat) (v : Byte) (cs : List Host.Cell) : List Host.Cell :=
  if v = Config.resetByte then cs.filter (fun c => c.1 != a) else insertCell a v (cs.filter (fun c => c.1 != a))

/-- Byte read, `F[a]` (R54 (d)). -/
def Memory.read (m : Memory) (a : Nat) : Byte := lookup a m.cells

/-- Byte write, `F[a] <- v` (R54 (a)). -/
def Memory.write (m : Memory) (a : FrameAddr) (v : Byte) : Memory := ⟨storeCell a.val v m.cells⟩

/-- Byte OR, `F[a] <- F[a] | v` (R54 (b)). -/
def Memory.orByte (m : Memory) (a : FrameAddr) (v : Byte) : Memory := m.write a (m.read a.val ||| v)

/-- High-nibble replace, `F[a] <- (n << 4) | lo(F[a])` (R54 (c)). -/
def Memory.replaceHi (m : Memory) (a : FrameAddr) (n : Nibble) : Memory := m.write a (pack n (lo (m.read a.val)))

/-- The canonical form: addresses strictly rising, all of them below 9 (R50), and no entry equal to what an unlisted address
reads as. -/
abbrev Memory.wf (m : Memory) : Prop :=
  m.cells.Pairwise (fun x y => x.1 < y.1) ∧ ∀ c ∈ m.cells, c.1 < Config.frameBytes ∧ c.2 ≠ Config.resetByte

/-! ### The output primitives and the trace (spec/00_scope.md R11) -/

/-- The event of a `Set` to a level: `H` for `SetHigh()`, `L` for `SetLow()`. -/
def levelEvent (b : Bool) : Event := if b then .H else .L

/-- `SetHigh()` for `b = true`, `SetLow()` for `b = false`: `TX <- b`, zero ticks. -/
def State.setLevel (b : Bool) (s : State) : State :=
  { s with tx := b, trace := s.trace ++ [levelEvent b] }

/-- The start of `Wait(d)`: `TMR <- d` (spec/60_exceptions.md R215). -/
def State.loadTimer (d : Nat) (s : State) : State :=
  { s with tmr := BitVec.ofNat 14 d, trace := s.trace ++ [.W d] }

/-- `Wait(d)` whole, as the big-step rules use it: the timer is loaded, and all its ticks pass. -/
def State.wait (d : Nat) (s : State) : State := { s.loadTimer d with tmr := 0#14 }

/-- The level of the last `H` or `L` event of a trace that starts at level `l`. -/
def levelAfter (l : Bool) : List Event → Bool
  | [] => l
  | .H :: es => levelAfter true es
  | .L :: es => levelAfter false es
  | .W _ :: es => levelAfter l es

/-- The segments `(level, d)` of a trace that starts at level `l`: each `W(d)` at the level last set (R11). -/
def segmentsFrom (l : Bool) : List Event → List (Bool × Nat)
  | [] => []
  | .H :: es => segmentsFrom true es
  | .L :: es => segmentsFrom false es
  | .W d :: es => (l, d) :: segmentsFrom l es

/-- Merges adjacent runs of equal level. -/
def mergeRuns : List (Bool × Nat) → List (Bool × Nat)
  | [] => []
  | (l, d) :: rs =>
    match mergeRuns rs with
    | (l', d') :: rs' => if l = l' then (l, d + d') :: rs' else (l, d) :: (l', d') :: rs'
    | [] => [(l, d)]

/-- The wire waveform of a trace that starts at level `l` (R11). -/
def wireFrom (l : Bool) (es : List Event) : List (Bool × Nat) := mergeRuns (segmentsFrom l es)

/-- The ticks that the `W(d)` events of a trace take, in all. -/
def ticksOf : List Event → Nat
  | [] => 0
  | .W d :: es => d + ticksOf es
  | .H :: es => ticksOf es
  | .L :: es => ticksOf es

/-- A trace whose current `W(d)` is cut short with `left` ticks still to run: it becomes a wait of the ticks that did pass, and
goes where none did (spec/70_reset_and_hazards.md R232; assumption 6). -/
def cutShort (left : Nat) (es : List Event) : List Event :=
  match es.getLast? with
  | some (.W d) => es.dropLast ++ (if left < d then [.W (d - left)] else [])
  | _ => es

/-! ### The input ports (spec/10_state.md R34) -/

/-- The levels at an edge that no list entry describes: no reset, no command, and a tick, since the tick source delivers "one
pulse per microsecond for ever" (spec/60_exceptions.md R216; assumption 1). -/
def Inputs.quiet : Inputs where
  rst := false
  tickUs := true
  cmdValid := false
  cmdData := 0#64

/-- The levels of the input ports at the coming clock edge. -/
def State.sample (s : State) : Inputs := s.inputs.headD Inputs.quiet

/-- The edge is over: the levels of the next edge stand at the ports. -/
def State.nextInputs (s : State) : State := { s with inputs := s.inputs.tail }

/-- What is fetched at the coming edge. Nothing is fetched while a send is in flight: a command waits on the port
(spec/44_commands.md R190). While idle, an operation invoked by itself (assumption 3), else the command presented. -/
def State.fetch (s : State) : Option FetchWord :=
  match s.phase with
  | .idle =>
    match s.encoderCall with
    | some l => some (.line l)
    | none => if s.sample.cmdValid then some (.command s.sample.cmdData) else none
  | _ => none

/-- The state in which the fetched word's instruction runs: the call, if there was one, is consumed. -/
def State.takeCall (s : State) : State := { s with encoderCall := none }

/-- `s` with the word presented where the coming edge fetches: the block idle, no reset, and the word on the command port, or as
an operation invoked by itself (assumption 3). -/
def State.present (s : State) : FetchWord → State
  | .command w =>
    { s with
      phase := .idle
      encoderCall := none
      inputs := { s.sample with rst := false, cmdValid := true, cmdData := w } :: s.inputs.tail }
  | .line l =>
    { s with
      phase := .idle
      encoderCall := some l
      inputs := { s.sample with rst := false } :: s.inputs.tail }

/-! ### Reset (spec/70_reset_and_hazards.md R230, R232) -/

/-- The trace after a reset edge: a send in flight is abandoned, its current wait cut short and an `L` appended (R232); so is an
`L` where `TX` was high outside a send (assumption 6). -/
def State.resetTrace (s : State) : List Event :=
  if s.phase ≠ .idle then cutShort s.tmr.toNat s.trace ++ [.L]
  else if s.tx then s.trace ++ [.L]
  else s.trace

/-- A clock edge with `rst = 1`: "every register takes its reset value" (R230); the trace, the count of draws and the ports to
come are the model's and are not cleared. -/
def State.resetEdge (s : State) : State :=
  { State.reset with trace := s.resetTrace, draws := s.draws, inputs := s.inputs.tail }

end Sys2Proof.Machine
end

