-- ==== Sys2Proof/Machine/Flags.lean ====
section
/-! DEFINITION. The status bits and the output ports (spec/10_state.md R26, R32, R34). "The hardware has no condition codes and no
arithmetic flags" (R32): no operation computes a flag. -/
namespace Sys2Proof.Machine

/-- The encoding of `PHASE` (R26). -/
def Phase.code : Phase → BitVec 3
  | .idle => 0#3
  | .preamble => 1#3
  | .payload => 2#3
  | .postamble => 3#3
  | .gap => 4#3
  | .done => 5#3

/-- `BUSY = (PHASE != IDLE)` (R32), the port `busy`. -/
def State.busy (s : State) : Bool := s.phase != .idle

/-- The port `cmd_ready = not BUSY and not rst` (R34). -/
def State.cmdReady (s : State) : Bool := !s.busy && !s.sample.rst

/-- The port `tx = TX` (R34). -/
def State.txPort (s : State) : Bool := s.tx

/-- The port `pin_sel = PINSEL` (R34). -/
def State.pinSel (s : State) : Byte := s.pinsel

/-- The port `frame_q = {F[8], ..., F[0]}` (R34; spec/20_memory.md R63). -/
def State.frameQ (s : State) : BitVec 72 :=
  s.mem.read 8 ++ s.mem.read 7 ++ s.mem.read 6 ++ s.mem.read 5 ++ s.mem.read 4 ++ s.mem.read 3 ++ s.mem.read 2 ++
    s.mem.read 1 ++ s.mem.read 0

/-- The port `hc_q = HC` (R34). -/
def State.hcQ (s : State) : Bool := s.hc

/-- The port `cfg_q = CFG` (R34). -/
def State.cfgQ (s : State) : Bool := s.cfg

/-- The function `FLEN = 9 if HC = 1 else 8` (R23). -/
def flen (hc : Bool) : Nat := if hc then Config.flenTH else Config.flenT

end Sys2Proof.Machine
end

