-- ==== Sys2Proof/Machine/Operands.lean ====
section
/-! DEFINITION. The operand forms: the type constant of a variant, and the temperature operand with the numeric functions of
spec/00_scope.md R12. -/
namespace Sys2Proof.Machine

/-- `TYPE(hc)`: the two bytes of the variant's type constant (spec/42_message_builder.md R136). -/
def typeBytes (hc : Bool) : Byte × Byte := if hc then Config.typeTH else Config.typeT

/-! ### Exact rationals -/

/-- An exact rational `num / den`, not reduced; every fraction of the model has `den > 0`. Integers, so that a step evaluates. -/
structure Frac where
  num : Int
  den : Nat
  deriving DecidableEq, Repr

/-- `-x`. -/
def Frac.neg (x : Frac) : Frac := ⟨-x.num, x.den⟩

/-- `x - n`, `n` an integer. -/
def Frac.subInt (x : Frac) (n : Int) : Frac := ⟨x.num - n * x.den, x.den⟩

/-- `x * n`, `n` an integer. -/
def Frac.mulInt (x : Frac) (n : Int) : Frac := ⟨x.num * n, x.den⟩

/-- `floor(x)`, "the greatest integer not above `x`" (R12). -/
def Frac.floor (x : Frac) : Int := x.num / (x.den : Int)

/-- `rha(x) = floor(x + 1/2)`, the source's `round`, for the non-negative arguments that occur (R12). -/
def Frac.rha (x : Frac) : Int := (2 * x.num + (x.den : Int)) / (2 * (x.den : Int))

/-! ### `NUM.rnd` (R7, R12) -/

/-- The exponent `e` with `2^e <= n/d < 2^(e+1)`, for `n` and `d` positive. -/
def binExponent (n d : Nat) : Int :=
  let e : Int := (Nat.log2 n : Int) - (Nat.log2 d : Int)
  if n * 2 ^ (-e).toNat < d * 2 ^ e.toNat then e - 1 else e

/-- The exponent of the unit `u = 2^(e'-23)` with `e' = max(e, -126)`, for `n/d` positive (R12). -/
def unitExponent (n d : Nat) : Int := max (binExponent n d) (-126) - 23

/-- `n/d` to the nearest integer, ties to the even one. -/
def roundHalfEven (n d : Nat) : Nat :=
  if d < 2 * (n % d) ∨ (2 * (n % d) = d ∧ n / d % 2 = 1) then n / d + 1 else n / d

/-- `rnd_b32(n/d)` for `n/d` not negative: the nearest multiple of the unit, ties to the even one (R12). -/
def roundB32Nat (n d : Nat) : Frac :=
  if n = 0 then ⟨0, 1⟩
  else
    let k := unitExponent n d
    ⟨(roundHalfEven (n * 2 ^ (-k).toNat) (d * 2 ^ k.toNat) * 2 ^ k.toNat : Nat), 2 ^ (-k).toNat⟩

/-- `rnd_b32(x)`; `rnd_b32(-x) = -rnd_b32(x)` (R12). -/
def roundB32 (x : Frac) : Frac :=
  if x.num < 0 then (roundB32Nat x.num.natAbs x.den).neg else roundB32Nat x.num.natAbs x.den

/-- `NUM.rnd`, by its instance (R12). -/
def round : Config.Rounding → Frac → Frac
  | .b32, x => roundB32 x
  | .exact, x => x

/-! ### `f32val` (R12) -/

/-- The value of a binary32 pattern. -/
inductive F32 where
  | nan
  | inf (negative : Bool)
  | finite (v : Frac)
  deriving DecidableEq, Repr

/-- `n`, negated where the sign bit is set. -/
def signed (negative : Bool) (n : Nat) : Int := if negative then -(n : Int) else (n : Int)

/-- `f32val(t)` (R12): sign `t[31]`, exponent `t[30:23]`, fraction `t[22:0]`. -/
def f32val (t : BitVec 32) : F32 :=
  let s := t.getLsbD 31
  let e := (t.extractLsb' 23 8).toNat
  let f := (t.extractLsb' 0 23).toNat
  if e = 255 then (if f = 0 then .inf s else .nan)
  else if e = 0 then .finite ⟨signed s f, 2 ^ 149⟩
  else .finite ⟨signed s ((2 ^ 23 + f) * 2 ^ (e - 150)), 2 ^ (150 - e)⟩

/-- `v` is not a NaN and `v < 0`; `-0` is not below 0, `-Inf` is (spec/42_message_builder.md R140). -/
def F32.isNeg : F32 → Bool
  | .nan => false
  | .inf negative => negative
  | .finite v => decide (v.num < 0)

/-- The magnitude `m` of a finite value below `2^20` in magnitude; none for every other value (spec/42_message_builder.md R140,
R143). -/
def F32.magnitude : F32 → Option Frac
  | .finite v =>
    if v.num.natAbs < Config.tempBound * v.den then some ⟨(v.num.natAbs : Int), v.den⟩ else none
  | _ => none

/-! ### The temperature's digits (spec/42_message_builder.md R140) -/

/-- `td` and `tf` of `tempInt`, and `tenths`. -/
structure TempDigits where
  td : Nat
  tf : Nat
  tenths : Nat
  deriving DecidableEq, Repr

/-- `tempInt = floor(m)`. -/
def tempInt (m : Frac) : Nat := m.floor.toNat

/-- `tf = rha(rnd(rnd(q - td) * 10))` with `q = rnd(tempInt / 10)`: the units digit (R140, R141). -/
def unitsDigit (r : Config.Rounding) (n : Nat) : Nat :=
  ((round r ((round r ((round r ⟨(n : Int), 10⟩).subInt ((n / 10 : Nat) : Int))).mulInt 10)).rha).toNat

/-- `tenths = rha(rnd(rnd(m - tempInt) * 10))` (R140, R141). -/
def tenthsDigit (r : Config.Rounding) (m : Frac) : Nat :=
  ((round r ((round r (m.subInt (tempInt m : Int))).mulInt 10)).rha).toNat

/-- The magnitude decomposition (R140). -/
def tempDigits (r : Config.Rounding) (m : Frac) : TempDigits where
  td := tempInt m / 10
  tf := unitsDigit r (tempInt m)
  tenths := tenthsDigit r m

end Sys2Proof.Machine
end

