-- ==== Sys2Proof/Machine/Builder.lean ====
section
/-! DEFINITION. The message builder: the field setters (spec/42_message_builder.md). Each is a total function of its operand and
the frame; "no setter clamps, saturates, rejects or reports anything" (R135). -/
namespace Sys2Proof.Machine

/-- SET_TYPE (R136). -/
def setType (b : Byte × Byte) (m : Memory) : Memory := (m.write 0 b.1).write 1 b.2

/-- SET_CHANNEL (R137). -/
def setChannel (c : Byte) (m : Memory) : Memory := m.write 2 c

/-- SET_ID (R138). -/
def setIdent (d : Byte) (m : Memory) : Memory := m.write 3 d

/-- SET_BATTERY: byte 4 whole (R139). -/
def setBattery (level : Bool) (m : Memory) : Memory := m.write 4 (if level then Config.battOk else Config.battLow)

/-- The sign byte: `0x08` where the temperature is below 0, else `0x00` (R140). -/
def signByte (t : BitVec 32) : Byte := if (f32val t).isNeg then Config.signNeg else 0x00#8

/-- The value stored to `F[5]`: the tens and units digits, cut to a byte (R140); the free byte outside the numeric range (R143). -/
def digitsByte (r : Config.Rounding) (free : Byte) (t : BitVec 32) : Byte :=
  match (f32val t).magnitude with
  | some m => BitVec.ofNat 8 (((tempDigits r m).td <<< 4) ||| (tempDigits r m).tf)
  | none => free

/-- The value ORed into `F[4]`: the tenths digit in the high nibble (R140); the free nibble outside the numeric range (R143). -/
def tenthsByte (r : Config.Rounding) (free : Nibble) (t : BitVec 32) : Byte :=
  match (f32val t).magnitude with
  | some m => BitVec.ofNat 8 ((tempDigits r m).tenths <<< 4)
  | none => pack free 0#4

/-- SET_TEMPERATURE (R140): `F[6]` and `F[5]` whole, and the tenths digit ORed into `F[4]`. `freeD` and `freeT` are the free
values of R143. -/
def setTemperature (r : Config.Rounding) (freeD : Byte) (freeT : Nibble) (t : BitVec 32) (m : Memory) : Memory :=
  ((m.write 6 (signByte t)).write 5 (digitsByte r freeD t)).orByte 4 (tenthsByte r freeT t)

/-- SET_HUMIDITY (R144): the tens in `F[7]` whole, the units in the high nibble of `F[6]`. -/
def setHumidity (h : Byte) (m : Memory) : Memory :=
  (m.write 7 (BitVec.ofNat 8 (h.toNat / 10))).replaceHi 6 (BitVec.ofNat 4 (h.toNat - h.toNat / 10 * 10))

end Sys2Proof.Machine
end

