-- ==== Sys2Proof/Machine/Checksum.lean ====
section
/-! DEFINITION. The checksum calculator (spec/41_checksum.md) and the update step of a send (spec/43_tx_sequencer.md R160). -/
namespace Sys2Proof.Machine

/-- NIBBLE_SUM(count): the sum of both nibbles of the first `count` bytes, in a 16-bit accumulator (R120). -/
def nibbleSum (m : Memory) : Nat → BitVec 16
  | 0 => 0#16
  | n + 1 => nibbleSum m n + (hi (m.read n)).setWidth 16 + (lo (m.read n)).setWidth 16

/-- The value `s` of variant T: `(NIBBLE_SUM(6) + lo(F[6]) - 0x0A) mod 256` (R121). -/
def checksumValueT (m : Memory) : Byte :=
  (nibbleSum m Config.ckNT + (lo (m.read 6)).setWidth 16 - Config.ckBias).setWidth 8

/-- The value of variant TH: `(NIBBLE_SUM(8) - 0x0A) mod 256` (R122). -/
def checksumValueTH (m : Memory) : Byte := (nibbleSum m Config.ckNTH - Config.ckBias).setWidth 8

/-- CHECKSUM_T (R121): `s[3:0]` into the high nibble of `F[6]`, `s[7:4]` into `F[7]` whole. -/
def checksumT (m : Memory) : Memory :=
  (m.replaceHi 6 (lo (checksumValueT m))).write 7 ((hi (checksumValueT m)).setWidth 8)

/-- CHECKSUM_TH (R122). -/
def checksumTH (m : Memory) : Memory := m.write 8 (checksumValueTH m)

/-- CHECKSUM: the variant's, by `HC` only (R124). -/
def checksum (hc : Bool) (m : Memory) : Memory := if hc then checksumTH m else checksumT m

/-- SET_HUMIDITY in variant TH; in variant T the operand is ignored (R160). -/
def humidityIfCapable (hc : Bool) (hum : Byte) (m : Memory) : Memory := if hc then setHumidity hum m else m

/-- The frame after UPDATE (R160): battery, temperature, humidity if applicable, checksum, in this order
(spec/20_memory.md R58). -/
def updateFrame (r : Config.Rounding) (freeD : Byte) (freeT : Nibble) (hc : Bool) (hum : Byte) (temp : BitVec 32)
    (bok : Bool) (m : Memory) : Memory :=
  checksum hc (humidityIfCapable hc hum (setTemperature r freeD freeT temp (setBattery bok m)))

/-- UPDATE(hum, temp, bok) (R160). A send whose temperature is outside the numeric range draws fresh free values
(spec/42_message_builder.md R143; assumption 7). -/
def State.update (hum : Byte) (temp : BitVec 32) (bok : Bool) (s : State) : State :=
  { s with
    mem := updateFrame Config.numRnd (Config.freeDigits s.draws) (Config.freeTenths s.draws) s.hc hum temp bok s.mem
    draws := if (f32val temp).magnitude.isSome then s.draws else s.draws + 1 }

end Sys2Proof.Machine
end

