-- ==== Sys2Proof/Machine/Encoder.lean ====
section
/-! DEFINITION. The bit encoder (spec/40_bitencoder.md) and the sequencer's big-step operations (spec/43_tx_sequencer.md R161 to
R170), over the output primitives; and the meanings of the opcode table's symbol and line rows. -/
namespace Sys2Proof.Machine

/-! ### The line code as events -/

/-- The level of segment `k` of the symbol of bit `b`: `b if k = 1 else not b` (spec/40_bitencoder.md R102). -/
def segLevel (b : Bool) (k : Fin 3) : Bool := if k = 1 then b else !b

/-- The duration of segment `k` of a symbol: `2T if k = 1 else T` (R102). -/
def segTicks (k : Fin 3) : Nat := if k = 1 then Config.twoT else Config.tUs

/-- Segment `k` of the symbol of bit `b` in the trace. -/
def segEvents (b : Bool) (k : Fin 3) : List Event := [levelEvent (segLevel b k), .W (segTicks k)]

/-- The trace of SYMBOL(b) (R100, R101, R102). -/
def symbolEvents (b : Bool) : List Event := segEvents b 0 ++ segEvents b 1 ++ segEvents b 2

/-- The trace of a sequence of symbols. -/
def bitsEvents : List Bool → List Event
  | [] => []
  | b :: bs => symbolEvents b ++ bitsEvents bs

/-- The bits of a byte in air order, `v[0]` to `v[7]` (R105). -/
def byteBits (v : Byte) : List Bool :=
  [v.getLsbD 0, v.getLsbD 1, v.getLsbD 2, v.getLsbD 3, v.getLsbD 4, v.getLsbD 5, v.getLsbD 6, v.getLsbD 7]

/-- The bits of a buffer in air order (R106). -/
def dataBits : List Byte → List Bool
  | [] => []
  | v :: vs => byteBits v ++ dataBits vs

/-- The bytes `F[0]` to `F[FLEN-1]` of the payload (spec/43_tx_sequencer.md R162). -/
def payloadBytes (hc : Bool) (m : Memory) : List Byte := (List.range (flen hc)).map m.read

/-- The symbol bits of one copy of the frame: sixteen 1s, the payload, four or eight 0s (R170). -/
def copyBits (hc : Bool) (m : Memory) : List Bool :=
  List.replicate Config.preBits true ++ dataBits (payloadBytes hc m) ++
    List.replicate (if hc then Config.postBitsTH else Config.postBitsT) false

/-- The trace of XMIT (R170). -/
def xmitEvents (hc : Bool) (m : Memory) : List Event :=
  bitsEvents (copyBits hc m) ++ [.L, .W Config.gapUs] ++ bitsEvents (copyBits hc m) ++ [.L]

/-! ### The operations -/

/-- ZERO (R100). -/
def State.emitZero (s : State) : State :=
  ((((((s.setLevel true).wait Config.tUs).setLevel false).wait Config.twoT).setLevel true).wait Config.tUs)

/-- ONE (R101). -/
def State.emitOne (s : State) : State :=
  ((((((s.setLevel false).wait Config.tUs).setLevel true).wait Config.twoT).setLevel false).wait Config.tUs)

/-- SYMBOL(b) (R102). -/
def State.symbol (b : Bool) (s : State) : State := if b then s.emitOne else s.emitZero

/-- NIBBLE_LO(v) (R103). -/
def State.emitNibbleLo (v : Byte) (s : State) : State :=
  (((s.symbol (v.getLsbD 0)).symbol (v.getLsbD 1)).symbol (v.getLsbD 2)).symbol (v.getLsbD 3)

/-- NIBBLE_HI(v) (R104). -/
def State.emitNibbleHi (v : Byte) (s : State) : State :=
  (((s.symbol (v.getLsbD 4)).symbol (v.getLsbD 5)).symbol (v.getLsbD 6)).symbol (v.getLsbD 7)

/-- BYTE(v): "low nibble first, then high nibble" (R105). -/
def State.emitByte (v : Byte) (s : State) : State := (s.emitNibbleLo v).emitNibbleHi v

/-- DATA(buf, n), `buf` a list of `n` bytes (R106). -/
def State.emitData (buf : List Byte) (s : State) : State :=
  match buf with
  | [] => s
  | v :: vs => (s.emitByte v).emitData vs

/-- PREAMBLE: `DATA((0xFF, 0xFF), 2)` (spec/43_tx_sequencer.md R161). -/
def State.emitPreamble (s : State) : State := s.emitData [0xFF#8, 0xFF#8]

/-- PAYLOAD: `DATA(F, FLEN)` (R162). -/
def State.emitPayload (s : State) : State := s.emitData (payloadBytes s.hc s.mem)

/-- POSTAMBLE: `BYTE(0x00)` in variant TH, `NIBBLE_LO(0x00)` in variant T (R164). -/
def State.emitPostamble (s : State) : State := if s.hc then s.emitByte 0x00#8 else s.emitNibbleLo 0x00#8

/-- FRAME_TX (R165). -/
def State.frameTx (s : State) : State := s.emitPreamble.emitPayload.emitPostamble

/-- GAP (R166). -/
def State.emitGap (s : State) : State := (s.setLevel false).wait Config.gapUs

/-- XMIT (R170): the first copy, the gap, the second copy, the final drive-low (R167). -/
def State.xmit (s : State) : State := s.frameTx.emitGap.frameTx.setLevel false

/-! ### The meanings -/

/-- ZERO (R100). -/
def execZero (s : State) : Host.Outcome State Fault Refusal := .next s.emitZero

/-- ONE (R101). -/
def execOne (s : State) : Host.Outcome State Fault Refusal := .next s.emitOne

/-- NIBBLE_LO(v) (R103). -/
def execNibbleLo (v : Byte) (s : State) : Host.Outcome State Fault Refusal := .next (s.emitNibbleLo v)

/-- NIBBLE_HI(v) (R104). -/
def execNibbleHi (v : Byte) (s : State) : Host.Outcome State Fault Refusal := .next (s.emitNibbleHi v)

/-- BYTE(v) (R105). -/
def execByte (v : Byte) (s : State) : Host.Outcome State Fault Refusal := .next (s.emitByte v)

/-- PREAMBLE (spec/43_tx_sequencer.md R161). -/
def execPreamble (s : State) : Host.Outcome State Fault Refusal := .next s.emitPreamble

/-- POSTAMBLE in variant T: `NIBBLE_LO(0x00)` (R164). -/
def execPostambleT (s : State) : Host.Outcome State Fault Refusal := .next (s.emitNibbleLo 0x00#8)

/-- POSTAMBLE in variant TH: `BYTE(0x00)` (R164). -/
def execPostambleTH (s : State) : Host.Outcome State Fault Refusal := .next (s.emitByte 0x00#8)

end Sys2Proof.Machine
end

