-- ==== Sys2Proof/Machine/Sequencer.lean ====
section
/-! DEFINITION. The small-step sequencer (spec/43_tx_sequencer.md R171 to R179) and the segment timer
(spec/60_exceptions.md R215 to R217). -/
namespace Sys2Proof.Machine

/-- The symbols of a phase: 16, `8 * FLEN`, 8 or 4; none outside the three symbol phases (R174). -/
def phaseSymbols (p : Phase) (hc : Bool) : Nat :=
  match p with
  | .preamble => Config.preBits
  | .payload => 8 * flen hc
  | .postamble => if hc then Config.postBitsTH else Config.postBitsT
  | .idle => 0
  | .gap => 0
  | .done => 0

/-- next(PHASE, REP) (R175); R171 gives the same edges and no other. -/
def nextPhase (p : Phase) (rep : Bool) : Phase :=
  match p with
  | .preamble => .payload
  | .payload => .postamble
  | .postamble => if rep then .done else .gap
  | .idle => .idle
  | .gap => .preamble
  | .done => .idle

/-- The frame bit `F[BITCNT div 8][BITCNT mod 8]` (R173). -/
def State.frameBit (s : State) : Bool := (s.mem.read (s.bitcnt.toNat / 8)).getLsbD (s.bitcnt.toNat % 8)

/-- advance() (R174). -/
def State.advance (s : State) : State :=
  if s.seg.val < 2 then { s with seg := s.seg + 1 }
  else if s.bitcnt.toNat + 1 < phaseSymbols s.phase s.hc then { s with seg := 0, bitcnt := s.bitcnt + 1#7 }
  else { s with seg := 0, bitcnt := 0#7, phase := nextPhase s.phase s.rep }

/-- The symbol step for bit `b` (R173): the level, the timer, advance(). -/
def State.symbolStep (b : Bool) (s : State) : State :=
  ((s.setLevel (segLevel b s.seg)).loadTimer (segTicks s.seg)).advance

/-- The gap step (R176). -/
def State.gapStep (s : State) : State :=
  { (s.setLevel false).loadTimer Config.gapUs with rep := true, phase := .preamble }

/-- The done step (R177). -/
def State.doneStep (s : State) : State := { s.setLevel false with rep := false, phase := .idle }

/-- The sequencer's step, by phase (R173, R176, R177); in `IDLE` it does nothing (R178). -/
def State.sequencerStep (s : State) : State :=
  match s.phase with
  | .idle => s
  | .preamble => s.symbolStep true
  | .payload => s.symbolStep s.frameBit
  | .postamble => s.symbolStep false
  | .gap => s.gapStep
  | .done => s.doneStep

/-- The sequencer "has a step exactly when `PHASE != IDLE` and `TMR = 0`" (R172). -/
def State.enabled (s : State) : Bool := s.busy && s.tmr == 0#14

/-- The sequencer's step where it has one (R172). -/
def State.settle (s : State) : State := if s.enabled then s.sequencerStep else s

/-- A tick: "if `TMR > 0` then `TMR <- TMR - 1`; otherwise nothing" (spec/60_exceptions.md R216). -/
def State.tick (s : State) : State := if s.tmr = 0#14 then s else { s with tmr := s.tmr - 1#14 }

/-- The tick of the coming edge, if there is one (R216). -/
def State.countTick (s : State) : State := if s.sample.tickUs then s.tick else s

/-- The end of an edge without reset: the sequencer's step that the edge enabled, "decrement first"
(spec/60_exceptions.md R212, R217; spec/43_tx_sequencer.md R172, R179), and the ports move on. -/
def State.endEdge (s : State) : State := s.settle.nextInputs

/-- The entry into a transmission (R179): `PHASE <- PREAMBLE` with the other registers of the position and the timer at their
idle values. -/
def State.enter (s : State) : State :=
  { s with phase := .preamble, rep := false, bitcnt := 0#7, seg := 0, tmr := 0#14 }

/-- `BITCNT` is within its phase's range: below the phase's number of symbols, and 0 in every other phase
(spec/10_state.md R28). -/
def State.bitcntInRange (s : State) : Bool :=
  decide (s.bitcnt.toNat < phaseSymbols s.phase s.hc) || s.bitcnt == 0#7

/-- A send is in flight at a position that no run reaches (spec/93_implementation_defined.md U4): "treat the sequencer as
`stuck`" (assumption 10). -/
def State.stuck (s : State) : Bool :=
  s.busy && !(s.bitcntInRange && decide (s.tmr.toNat ≤ Config.gapUs) && s.cfg)

/-- The ticks from the acceptance of a SEND to idle (R168): two copies of 2048 ticks a symbol, and the gap. -/
def sendTicks (hc : Bool) : Nat :=
  Config.copies * (Config.bitUs * (phaseSymbols .preamble hc + phaseSymbols .payload hc + phaseSymbols .postamble hc)) +
    Config.gapUs

end Sys2Proof.Machine
end

