-- ==== Sys2Proof/Machine/Commands.lean ====
section
/-! DEFINITION. The meanings of the host commands (spec/44_commands.md): what the edge that accepts one writes. -/
namespace Sys2Proof.Machine

/-- NOP: nothing (R191). -/
def execNop (s : State) : Host.Outcome State Fault Refusal := .next s

/-- CONFIGURE (R192). -/
def execConfigure (pin channel ident : Byte) (hc : Bool) (s : State) : Host.Outcome State Fault Refusal :=
  .next { s with
    pinsel := pin
    hc := hc
    mem := setIdent ident (setChannel channel (setType (typeBytes hc) s.mem))
    cfg := true }

/-- SET_PIN (R193). -/
def execSetPin (pin : Byte) (s : State) : Host.Outcome State Fault Refusal := .next { s with pinsel := pin }

/-- SET_HC (R194). -/
def execSetHc (hc : Bool) (s : State) : Host.Outcome State Fault Refusal :=
  .next { s with hc := hc, mem := setType (typeBytes hc) s.mem }

/-- SET_IDCH (R195). -/
def execSetIdch (ident channel : Byte) (s : State) : Host.Outcome State Fault Refusal :=
  .next { s with mem := setChannel channel (setIdent ident s.mem) }

/-- SEND (R196, R197). With `CFG = 1`: UPDATE, and the entry into `PREAMBLE` (spec/43_tx_sequencer.md R179), from which the
sequencer transmits. With `CFG = 0`: "accepted and does nothing" (assumption 9). -/
def execSend (hum : Byte) (temp : BitVec 32) (bok : Bool) (s : State) : Host.Outcome State Fault Refusal :=
  if s.cfg then .next (s.update hum temp bok).enter else .next s

/-- The reserved opcodes `0x6` and `0x7`: "behave as NOP: no state change" (R198; assumption 9). -/
def execReserved67 (_op : BitVec 4) (s : State) : Host.Outcome State Fault Refusal := .next s

/-- The reserved opcodes `0x8` to `0xF`: "behave as NOP: no state change" (R198; assumption 9). -/
def execReserved8F (_op : BitVec 4) (s : State) : Host.Outcome State Fault Refusal := .next s

end Sys2Proof.Machine
end

