-- ==== Sys2Proof/Machine/Dispatch.lean ====
section
/-! DEFINITION. One arm per constructor of `Instr`. -/
namespace Sys2Proof.Machine

def exec (i : Instr) (s : State) : Host.Outcome State Fault Refusal :=
  match i with
  | .nop => Sys2Proof.Machine.execNop s
  | .configure pin channel ident hc => Sys2Proof.Machine.execConfigure pin channel ident hc s
  | .setPin pin => Sys2Proof.Machine.execSetPin pin s
  | .setHc hc => Sys2Proof.Machine.execSetHc hc s
  | .setIdch ident channel => Sys2Proof.Machine.execSetIdch ident channel s
  | .send hum temp bok => Sys2Proof.Machine.execSend hum temp bok s
  | .reserved67 op => Sys2Proof.Machine.execReserved67 op s
  | .reserved8F op => Sys2Proof.Machine.execReserved8F op s
  | .zero => Sys2Proof.Machine.execZero s
  | .one => Sys2Proof.Machine.execOne s
  | .nibbleLo v => Sys2Proof.Machine.execNibbleLo v s
  | .nibbleHi v => Sys2Proof.Machine.execNibbleHi v s
  | .byte v => Sys2Proof.Machine.execByte v s
  | .preamble => Sys2Proof.Machine.execPreamble s
  | .postambleT => Sys2Proof.Machine.execPostambleT s
  | .postambleTH => Sys2Proof.Machine.execPostambleTH s

end Sys2Proof.Machine
end

