-- ==== Sys2Proof/Machine/Step.lean ====
section
/-! DEFINITION. One step is one clock edge. -/
namespace Sys2Proof.Machine

/-- One clock edge. `rst = 1` wins over everything (spec/60_exceptions.md R212; spec/70_reset_and_hazards.md R230). Otherwise a
tick, if there is one, is counted; the word fetched, if there is one, is decoded and runs, whole, at this edge
(spec/44_commands.md R190); and the sequencer takes the step that the edge enabled (R217). An impossible sequencer position is
stuck (spec/93_implementation_defined.md U4; assumption 10). The order within an edge is assumption 14. -/
def step (s : State) : Host.Outcome State Fault Refusal :=
  if s.sample.rst then .next s.resetEdge
  else if s.stuck then .fault .sequencerStuck
  else
    match s.fetch with
    | none => .next s.countTick.endEdge
    | some w =>
      match decode w with
      | .error e => .refused (.undecodable e)
      | .ok i =>
        match exec i s.countTick.takeCall with
        | .next t => .next t.endEdge
        | .fault r => .fault r
        | .refused r => .refused r

/-- `s` with a word of the opcode table presented where the very next step fetches it (`State.present`); `s` itself where the
numbers are no such word. How a program comes to run from reset is assumption 12. -/
def State.withFetchWord (s : State) (nbits w : Nat) : State :=
  match tableWord nbits w with
  | some f => s.present f
  | none => s

end Sys2Proof.Machine
end

