-- ==== Sys2Proof/Safety.lean ====
section
/-! DEFINITION. What counts as a state of the machine: the invariants of spec/10_state.md R35 and the ranges of R28 and R30, with
what the model adds about its own fields. -/
namespace Sys2Proof.Machine

/-- The rational that a fraction stands for. -/
def Frac.val (x : Frac) : ℚ := (x.num : ℚ) / (x.den : ℚ)

end Sys2Proof.Machine

namespace Sys2Proof.Safety

open Sys2Proof.Machine

/-- The invariant that every step keeps. -/
structure Inv (s : State) : Prop where
  /-- The frame buffer is in its canonical form. -/
  mem_wf : s.mem.wf
  /-- I1 of R35: a configured block holds the type constant of its variant. -/
  typed : s.cfg = true → s.mem.read 0 = (typeBytes s.hc).1 ∧ s.mem.read 1 = (typeBytes s.hc).2
  /-- I2 of R35. -/
  idle : s.phase = .idle → s.tx = false ∧ s.tmr = 0#14 ∧ s.rep = false ∧ s.bitcnt = 0#7 ∧ s.seg = 0
  /-- `BITCNT` is within its phase's range (R28); with the types of `PHASE` and `SEG` this is I3 of R35. -/
  bitcnt_range : s.bitcntInRange = true
  /-- `TMR` is at most `GAP_US` (R30; spec/93_implementation_defined.md U4). -/
  tmr_range : s.tmr.toNat ≤ Config.gapUs
  /-- I5 of R35. -/
  configured : s.phase ≠ .idle → s.cfg = true
  /-- Between two edges the sequencer is waiting: a send in flight has ticks left in its segment
  (spec/43_tx_sequencer.md R172). -/
  waiting : s.phase ≠ .idle → s.tmr ≠ 0#14
  /-- The gap is reached in the first copy only, with the position at its start (R27, R28; spec/43_tx_sequencer.md R175). -/
  gap : s.phase = .gap → s.rep = false ∧ s.seg = 0
  /-- The end is reached in the second copy only, with the position at its start (R27, R28; spec/43_tx_sequencer.md R175). -/
  done : s.phase = .done → s.rep = true ∧ s.seg = 0
  /-- The trace's last level is the level of `TX` (spec/00_scope.md R11). -/
  level : levelAfter false s.trace = s.tx
  /-- No operation of the table's line or symbol rows is invoked by itself: that is not the hardware's (assumption 3). -/
  noCall : s.encoderCall = none

/-- The phase graph (spec/43_tx_sequencer.md R171): the phase `q` is `p`, or follows it on an edge of the graph that `REP = rep`
and `CFG = cfg` allow. -/
def PhaseStep (cfg rep : Bool) (p q : Phase) : Prop :=
  q = p ∨ (p = .idle ∧ q = .preamble ∧ cfg = true) ∨ (p = .preamble ∧ q = .payload) ∨ (p = .payload ∧ q = .postamble) ∨
    (p = .postamble ∧ q = .gap ∧ rep = false) ∨ (p = .postamble ∧ q = .done ∧ rep = true) ∨ (p = .gap ∧ q = .preamble) ∨
    (p = .done ∧ q = .idle)

/-- Every register of spec/10_state.md R20 is 0, `PHASE` at `IDLE` (R39). -/
def AllRegistersZero (s : State) : Prop :=
  (∀ a, s.mem.read a = 0x00#8) ∧ s.hc = false ∧ s.cfg = false ∧ s.pinsel = 0x00#8 ∧ s.phase = .idle ∧ s.rep = false ∧
    s.bitcnt = 0#7 ∧ s.seg = 0 ∧ s.tmr = 0#14 ∧ s.tx = false

/-- The sum of both nibbles of the bytes `F[0]` to `F[count-1]`, over the integers (spec/41_checksum.md R120). -/
def nibbleTotal (m : Memory) (count : Nat) : Nat :=
  ((List.range count).map fun i => (hi (m.read i)).toNat + (lo (m.read i)).toNat).sum

/-- The bits that the command with opcode `op` looks at, by spec/opcode_table.json: `OP` and the fields of its operands; the others
are ignored (spec/30_encoding.md R73). -/
def usedBits (op : BitVec 4) : CommandWord :=
  match op.toNat with
  | 1 => 0xFFFFFFF100000000#64
  | 2 => 0xFFF0000000000000#64
  | 3 => 0xF000000100000000#64
  | 4 => 0xF00FFFF000000000#64
  | 5 => 0xFFF00001FFFFFFFF#64
  | _ => 0xF000000000000000#64

/-- The exponent field `e = t[30:23]` of a binary32 pattern (spec/00_scope.md R12). -/
def expField (t : BitVec 32) : Nat := t.toNat / 2 ^ 23 % 2 ^ 8

/-- The fraction field `f = t[22:0]` of a binary32 pattern (spec/00_scope.md R12). -/
def fracField (t : BitVec 32) : Nat := t.toNat % 2 ^ 23

/-- The magnitude that a binary32 pattern with an exponent below 255 has, without its sign (spec/00_scope.md R12). -/
def patternMagnitude (t : BitVec 32) : ℚ :=
  if expField t = 0 then (fracField t : ℚ) * 2 ^ (-149 : Int)
  else (2 ^ 23 + (fracField t : ℚ)) * 2 ^ ((expField t : Int) - 150)

/-- The bit of the symbol at the sequencer's position (spec/43_tx_sequencer.md R173). -/
def symbolBit (s : State) : Bool :=
  match s.phase with
  | .preamble => true
  | .payload => (s.mem.read (s.bitcnt.toNat / 8)).getLsbD (s.bitcnt.toNat % 8)
  | _ => false

/-- The number of symbols of the sequencer's phase (spec/43_tx_sequencer.md R174, R81). -/
def symbolsHere (s : State) : Nat :=
  match s.phase with
  | .preamble => 16
  | .payload => if s.hc then 72 else 64
  | .postamble => if s.hc then 8 else 4
  | _ => 0

/-- The ticks of a symbol from its segment `k` on (spec/40_bitencoder.md R102). -/
def symbolTicksFrom (k : Fin 3) : Nat := if k = 0 then 2048 else if k = 1 then 1536 else 512

/-- The ticks of one copy of the frame (spec/70_reset_and_hazards.md R245). -/
def copyTicks (hc : Bool) : Nat := if hc then 196608 else 172032

/-- The ticks of a send after its copy number `rep` (spec/70_reset_and_hazards.md R245). -/
def ticksAfterCopy (hc rep : Bool) : Nat := if rep then 0 else 8192 + copyTicks hc

/-- The ticks of the current copy after its phase `p` (spec/70_reset_and_hazards.md R245). -/
def ticksAfterPhase (p : Phase) (hc : Bool) : Nat :=
  match p with
  | .preamble => if hc then 147456 + 16384 else 131072 + 8192
  | .payload => if hc then 16384 else 8192
  | _ => 0

/-- The ticks until the send in flight ends: those of the segment in flight, and those of the segments still to start. -/
def ticksLeft (s : State) : Nat :=
  match s.phase with
  | .idle => 0
  | .gap => s.tmr.toNat + 8192 + copyTicks s.hc
  | .done => s.tmr.toNat
  | p =>
    s.tmr.toNat + symbolTicksFrom s.seg + 2048 * (symbolsHere s - (s.bitcnt.toNat + 1)) + ticksAfterPhase p s.hc +
      ticksAfterCopy s.hc s.rep

end Sys2Proof.Safety
end

