-- ==== Sys2Proof/Certificates/Slice0/Obligations.lean ====
section
/-! DEFINITION. The statements for the provers. Each docstring names the rules of spec/ it formalises. -/
open Sys2Proof Sys2Proof.Machine Sys2Proof.Safety

/-! ### Reset -/

/-- R39: every bit of the state is 0 after reset, the frame's nine bytes among them; and the memory is in canonical form. -/
def Obligations.ResetClearsEveryRegister : Prop :=
  AllRegistersZero State.reset ∧ State.reset.mem.wf

/-- The invariant holds right after reset (R35, R39). -/
def Obligations.ResetStateMeetsTheInvariant : Prop :=
  Inv State.reset

/-- R230, R232: an edge with `rst = 1` gives every register its reset value, whatever else is due at that edge; the trace of an
idle block with a low line stands, and a send in flight whose current wait `W d` has `TMR` ticks left has that wait cut to the
ticks that passed and an `L` appended. That a wait of which no tick passed leaves no event is assumption 6. -/
def Obligations.ResetEdgeClearsTheBlock : Prop :=
  ∀ s : State, s.sample.rst = true →
    ∃ t, step s = .next t ∧ AllRegistersZero t ∧ t.mem.wf ∧
      (s.phase = .idle → s.tx = false → t.trace = s.trace) ∧
      (∀ es d, s.phase ≠ .idle → s.trace = es ++ [.W d] →
        t.trace = es ++ (if s.tmr.toNat < d then [.W (d - s.tmr.toNat)] else []) ++ [.L])

/-! ### Decoding and encoding -/

/-- Command words of the spec and what they stand for (R70, R71; spec/95_test_vectors.md V2.100 to V2.109). -/
def Obligations.KnownCommandWordsDecode : Prop :=
  decodeTableWord 64 0x0000000000000000 = some .nop ∧
  decodeTableWord 64 0x1031042000000000 = some (.configure 0x03#8 0x10#8 0x42#8 false) ∧
  decodeTableWord 64 0x10520BB100000000 = some (.configure 0x05#8 0x20#8 0xBB#8 true) ∧
  decodeTableWord 64 0x2070000000000000 = some (.setPin 0x07#8) ∧
  decodeTableWord 64 0x3000000100000000 = some (.setHc true) ∧
  decodeTableWord 64 0x40020BB000000000 = some (.setIdch 0xBB#8 0x20#8) ∧
  decodeTableWord 64 0x5000000141AC0000 = some (.send 0x00#8 0x41AC0000#32 true) ∧
  decodeTableWord 64 0x52FABCDEC0A9999A = some (.send 0x2F#8 0xC0A9999A#32 false) ∧
  decodeTableWord 8 0x09 = some .zero ∧
  decodeTableWord 8 0x06 = some .one ∧
  decodeTableWord 16 0xFFFF = some .preamble ∧
  decodeTableWord 8 0x00 = some .postambleTH

/-- Decoding an encoded well-formed instruction gives it back, for every instruction and every operand (R70 to R73, R87). -/
def Obligations.DecodeOfEncodeIsTheInstruction : Prop :=
  ∀ i : Instr, i.wellFormed = true → decode (encode i) = .ok i

/-- What the decoder answers is well formed (R71: a reserved opcode is in its row's range). The half over line words is about the
model's own words, and that a decoded NIBBLE_LO or NIBBLE_HI operand has its other nibble 0, which R103 and R104 only say is not
looked at, is the model's choice: assumption 4. -/
def Obligations.DecodedInstructionsAreWellFormed : Prop :=
  ∀ (w : FetchWord) (i : Instr), decode w = .ok i → i.wellFormed = true

/-- R73: bits 35:33 and the fields that a command does not use are ignored: words that agree on the bits the command uses
(spec/opcode_table.json) decode to the same instruction. -/
def Obligations.IgnoredBitsDoNotMatter : Prop :=
  ∀ w v : CommandWord, w &&& usedBits (fieldOp w) = v &&& usedBits (fieldOp w) → decodeCommand w = decodeCommand v

/-! ### The step -/

/-- A step runs the decoded instruction: at an edge without reset, in a state that is not stuck, where the word fetched decodes to
`i`, the step is `exec i` on the state with the edge's tick counted and the call consumed, followed by the end of the edge: the
sequencer's step if it is enabled, and the ports moving on. The model's choices: that the tick is counted before the instruction and
that the sequencer's step is taken at the edge of the acceptance is assumption 14, read from R179, R212 and R217; the call consumed
is assumption 3. -/
def Obligations.StepRunsTheFetchedInstruction : Prop :=
  ∀ (s : State) (w : FetchWord) (i : Instr), s.sample.rst = false → s.stuck = false → s.fetch = some w → decode w = .ok i →
    step s = (match exec i s.countTick.takeCall with
      | .next t => .next t.settle.nextInputs
      | .fault r => .fault r
      | .refused r => .refused r)

/-- R190: a command presented while the block is idle is executed completely at that edge; the word presented is what runs. The
model's choice, read from R179, R212 and R217, is that the edge's tick is counted before it and that the sequencer's step it enables
is taken at the same edge: assumption 14. -/
def Obligations.CommandIsAcceptedWhileIdle : Prop :=
  ∀ s t : State, s.sample.rst = false → s.phase = .idle → s.encoderCall = none → s.sample.cmdValid = true →
    exec (decodeCommand s.sample.cmdData) s.countTick = .next t → step s = .next t.settle.nextInputs

/-- R190: while `PHASE != IDLE` the command port has no effect: the edge does what it would do with any other levels of
`cmd_valid` and `cmd_data`. -/
def Obligations.CommandWaitsWhileBusy : Prop :=
  ∀ (s : State) (valid : Bool) (word : CommandWord), s.phase ≠ .idle →
    step { s with inputs := { s.sample with cmdValid := valid, cmdData := word } :: s.inputs.tail } = step s

/-! ### The host commands -/

/-- R191: NOP, the opcode 0, leaves every register as it was. -/
def Obligations.NopChangesNothing : Prop :=
  (∀ s : State, exec .nop s = .next s) ∧ ∀ w : CommandWord, fieldOp w = 0x0#4 → decodeCommand w = .nop

/-- R198: the reserved opcodes are accepted and change nothing (the model runs them; assumption 9). -/
def Obligations.ReservedOpcodesChangeNothing : Prop :=
  (∀ (s : State) (op : BitVec 4), exec (.reserved67 op) s = .next s ∧ exec (.reserved8F op) s = .next s) ∧
  ∀ (s : State) (w : CommandWord), 6 ≤ (fieldOp w).toNat → exec (decodeCommand w) s = .next s

/-- R192: the words of CONFIGURE, what it writes, and that it writes nothing else: `F[4..8]` keep their values. -/
def Obligations.ConfigureWritesItsOperands : Prop :=
  (∀ w : CommandWord, fieldOp w = 0x1#4 →
    decodeCommand w = .configure (fieldA w) (fieldB w) (fieldC w) (fieldFlag w)) ∧
  ∀ (s : State) (pin channel ident : Byte) (hc : Bool), ∃ t,
    exec (.configure pin channel ident hc) s = .next t ∧
    t = { s with pinsel := pin, hc := hc, cfg := true, mem := t.mem } ∧
    t.mem.read 0 = (if hc then 0x1A#8 else 0xEA#8) ∧ t.mem.read 1 = (if hc then 0x2D#8 else 0x4C#8) ∧
    t.mem.read 2 = channel ∧ t.mem.read 3 = ident ∧ ∀ a, 4 ≤ a → t.mem.read a = s.mem.read a

/-- R193: the words of SET_PIN, and that it writes `PINSEL` only, configured or not. -/
def Obligations.SetPinWritesThePinSelectorOnly : Prop :=
  (∀ w : CommandWord, fieldOp w = 0x2#4 → decodeCommand w = .setPin (fieldA w)) ∧
  ∀ (s : State) (pin : Byte), exec (.setPin pin) s = .next { s with pinsel := pin }

/-- R194: the words of SET_HC; it writes `HC` and the type bytes, and nothing else; it does not set `CFG`. -/
def Obligations.SetHcRewritesTheTypeBytes : Prop :=
  (∀ w : CommandWord, fieldOp w = 0x3#4 → decodeCommand w = .setHc (fieldFlag w)) ∧
  ∀ (s : State) (hc : Bool), ∃ t,
    exec (.setHc hc) s = .next t ∧ t = { s with hc := hc, mem := t.mem } ∧
    t.mem.read 0 = (if hc then 0x1A#8 else 0xEA#8) ∧ t.mem.read 1 = (if hc then 0x2D#8 else 0x4C#8) ∧
    ∀ a, 2 ≤ a → t.mem.read a = s.mem.read a

/-- R195: the words of SET_IDCH; it writes `F[2]` and `F[3]`, and nothing else; it does not set `CFG`. -/
def Obligations.SetIdchWritesIdAndChannel : Prop :=
  (∀ w : CommandWord, fieldOp w = 0x4#4 → decodeCommand w = .setIdch (fieldC w) (fieldB w)) ∧
  ∀ (s : State) (ident channel : Byte), ∃ t,
    exec (.setIdch ident channel) s = .next t ∧ t = { s with mem := t.mem } ∧
    t.mem.read 2 = channel ∧ t.mem.read 3 = ident ∧ ∀ a, a ≠ 2 → a ≠ 3 → t.mem.read a = s.mem.read a

/-- R196, R179: a SEND in a configured block enters PREAMBLE at the start of the position; it writes `F[4..7]`, and `F[8]` in
variant TH only, and no other frame byte, and leaves every other register and `TX` (R160). -/
def Obligations.SendEntersTheTransmission : Prop :=
  ∀ (s : State) (hum : Byte) (temp : BitVec 32) (bok : Bool), s.cfg = true → ∃ t,
    exec (.send hum temp bok) s = .next t ∧
    t = { s with
      mem := t.mem, draws := t.draws, phase := .preamble, rep := false, bitcnt := 0#7, seg := 0, tmr := 0#14 } ∧
    ((f32val temp).magnitude.isSome = true → t.draws = s.draws) ∧
    ∀ a, a < 4 ∨ 8 < a ∨ (a = 8 ∧ s.hc = false) → t.mem.read a = s.mem.read a

/-- R197: a SEND in a block that is not configured changes nothing (the model runs it; assumption 9). -/
def Obligations.SendBeforeConfigureDoesNothing : Prop :=
  ∀ (s : State) (hum : Byte) (temp : BitVec 32) (bok : Bool), s.cfg = false → exec (.send hum temp bok) s = .next s

/-- R75, R76, R139, R140, R144: the fields of the frame a SEND leaves, for a temperature below `2^20` in magnitude `m`: battery
flag, tenths, units, tens and sign nibble, and in variant TH the humidity digits. The units digit is the last decimal digit of
`floor(m)` (R142 (a)); the tens digit is cut to four bits (R142 (d)). What the sign and `m` are in the operand's bits:
`TemperaturePatternHasItsValue`; what the tenths digit is: `TenthsDigitIsTheRoundedFraction`. -/
def Obligations.SendPacksTheReading : Prop :=
  ∀ (s t : State) (hum : Byte) (temp : BitVec 32) (bok : Bool) (m : Frac), s.cfg = true →
    (f32val temp).magnitude = some m → exec (.send hum temp bok) s = .next t →
      lo (t.mem.read 4) = (if bok then 0x0#4 else 0xC#4) ∧
      hi (t.mem.read 4) = BitVec.ofNat 4 (tenthsDigit .b32 m) ∧
      lo (t.mem.read 5) = BitVec.ofNat 4 (tempInt m % 10) ∧
      hi (t.mem.read 5) = BitVec.ofNat 4 (tempInt m / 10) ∧
      lo (t.mem.read 6) = (if (f32val temp).isNeg then 0x8#4 else 0x0#4) ∧
      (s.hc = true → hi (t.mem.read 6) = BitVec.ofNat 4 (hum.toNat % 10) ∧
        (t.mem.read 7).toNat = hum.toNat / 10)

/-- R143: a SEND whose temperature is not finite or is `2^20` or more in magnitude runs: the digit nibbles are the free values of
this draw, the sign nibble and the battery flag are as always, and the next draw is another. -/
def Obligations.OutOfRangeTemperatureStillSends : Prop :=
  ∀ (s : State) (hum : Byte) (temp : BitVec 32) (bok : Bool), s.cfg = true → (f32val temp).magnitude = none → ∃ t,
    exec (.send hum temp bok) s = .next t ∧ t.phase = .preamble ∧ t.draws = s.draws + 1 ∧
    t.mem.read 5 = Config.freeDigits s.draws ∧ hi (t.mem.read 4) = Config.freeTenths s.draws ∧
    lo (t.mem.read 4) = (if bok then 0x0#4 else 0xC#4) ∧
    lo (t.mem.read 6) = (if (f32val temp).isNeg then 0x8#4 else 0x0#4)

/-- R126: right after the update step of any send, recomputing the formula over the frame reproduces the stored checksum, in both
variants, whatever the operands. -/
def Obligations.ChecksumReproducesTheStoredBytes : Prop :=
  ∀ (s t : State) (hum : Byte) (temp : BitVec 32) (bok : Bool), s.cfg = true → exec (.send hum temp bok) s = .next t →
    (s.hc = true → (t.mem.read 8).toNat = (nibbleTotal t.mem 8 + 246) % 256) ∧
    (s.hc = false →
      (hi (t.mem.read 6)).toNat = (nibbleTotal t.mem 6 + (lo (t.mem.read 6)).toNat + 246) % 256 % 16 ∧
      (t.mem.read 7).toNat = (nibbleTotal t.mem 6 + (lo (t.mem.read 6)).toNat + 246) % 256 / 16)

/-- R160, R200: for fixed `HC` and `F[0..3]`, the frame after the update step, and with it the trace of the send, depends on the
SEND operands only; a temperature outside the numeric range draws, and then the draws must be the same (R181). -/
def Obligations.SendsLeaveNoResidue : Prop :=
  ∀ (s₁ s₂ t₁ t₂ : State) (hum : Byte) (temp : BitVec 32) (bok : Bool), s₁.cfg = true → s₂.cfg = true → s₁.hc = s₂.hc →
    (∀ a, a < 4 → s₁.mem.read a = s₂.mem.read a) →
    ((f32val temp).magnitude.isSome = true ∨ s₁.draws = s₂.draws) →
    exec (.send hum temp bok) s₁ = .next t₁ → exec (.send hum temp bok) s₂ = .next t₂ →
      (∀ a, a < flen s₁.hc → t₁.mem.read a = t₂.mem.read a) ∧ xmitEvents t₁.hc t₁.mem = xmitEvents t₂.hc t₂.mem

/-- R199: executing the same configuration command twice leaves what executing it once leaves, and CONFIGURE is SET_PIN, SET_HC
and SET_IDCH followed by `CFG <- 1`. -/
def Obligations.ConfigurationIsIdempotent : Prop :=
  (∀ (i : Instr) (s t : State), s.mem.wf →
    ((∃ pin channel ident hc, i = .configure pin channel ident hc) ∨ (∃ pin, i = .setPin pin) ∨ (∃ hc, i = .setHc hc) ∨
      ∃ ident channel, i = .setIdch ident channel) →
    exec i s = .next t → exec i t = .next t) ∧
  ∀ (pin channel ident : Byte) (hc : Bool) (s s₁ s₂ s₃ : State), s.mem.wf → exec (.setPin pin) s = .next s₁ →
    exec (.setHc hc) s₁ = .next s₂ → exec (.setIdch ident channel) s₂ = .next s₃ →
    exec (.configure pin channel ident hc) s = .next { s₃ with cfg := true }

/-! ### The checksum and the digits -/

/-- R120: the nibble sum is the mathematical sum of both nibbles of the first `count` bytes, at most 30 for each byte. -/
def Obligations.NibbleSumIsExact : Prop :=
  ∀ (m : Memory) (count : Nat), count ≤ 9 →
    (nibbleSum m count).toNat = nibbleTotal m count ∧ nibbleTotal m count ≤ count * 30

/-- R121: CHECKSUM_T on any frame: `s` modulo 256 into `hi(F[6])` and `F[7]`, `lo(F[6])` and every other byte kept; with the type
constant of variant T and a sign nibble there is no wrap. -/
def Obligations.ChecksumTStoresItsNibbles : Prop :=
  ∀ m : Memory,
    let v := (nibbleTotal m 6 + (lo (m.read 6)).toNat + 246) % 256
    (hi ((checksum false m).read 6)).toNat = v % 16 ∧ lo ((checksum false m).read 6) = lo (m.read 6) ∧
    ((checksum false m).read 7).toNat = v / 16 ∧
    (∀ a, a ≠ 6 → a ≠ 7 → (checksum false m).read a = m.read a) ∧
    (m.read 0 = 0xEA#8 → m.read 1 = 0x4C#8 → (lo (m.read 6)).toNat ≤ 8 →
      v + 10 = nibbleTotal m 6 + (lo (m.read 6)).toNat ∧ v ≤ 158)

/-- R122: CHECKSUM_TH on any frame: the sum less the bias, modulo 256, into `F[8]`, every other byte kept; with the type constant
of variant TH and six bytes more there is no wrap. -/
def Obligations.ChecksumTHStoresItsByte : Prop :=
  ∀ m : Memory,
    let v := (nibbleTotal m 8 + 246) % 256
    ((checksum true m).read 8).toNat = v ∧ (∀ a, a ≠ 8 → (checksum true m).read a = m.read a) ∧
    (m.read 0 = 0x1A#8 → m.read 1 = 0x2D#8 → v + 10 = nibbleTotal m 8 ∧ v ≤ 196)

/-- R142 (a): below `2^20` the units digit is the last decimal digit, under both instances of `NUM.rnd`. -/
def Obligations.UnitsDigitIsTheLastDecimalDigit : Prop :=
  ∀ (r : Config.Rounding) (n : Nat), n < 2 ^ 20 → unitsDigit r n = n % 10

/-- R142 (b): the tenths digit is 0 to 10 under both instances of `NUM.rnd`. -/
def Obligations.TenthsDigitIsAtMostTen : Prop :=
  ∀ (r : Config.Rounding) (temp : BitVec 32) (m : Frac), (f32val temp).magnitude = some m → tenthsDigit r m ≤ 10

/-- R140, R142 (b), (c), (f): the tenths digit itself, for a magnitude `m` below `2^20`. Let `p` be the exact product
`(m - floor(m)) * 10`. Under `rnd_exact` the digit is `floor(p + 1/2)`, so a tie goes up. Under `rnd_b32` it is that digit, or one
more exactly where `p`, which is below that digit and a half, rounds to it. -/
def Obligations.TenthsDigitIsTheRoundedFraction : Prop :=
  ∀ (temp : BitVec 32) (m : Frac), (f32val temp).magnitude = some m →
    let p := (m.subInt (tempInt m : Int)).mulInt 10
    let k := tenthsDigit .exact m
    p.val = 10 * (m.val - (⌊m.val⌋ : ℚ)) ∧ (k : Int) = ⌊10 * (m.val - (⌊m.val⌋ : ℚ)) + 1 / 2⌋ ∧
    p.val < (k : ℚ) + 1 / 2 ∧
    tenthsDigit .b32 m = (if (round .b32 p).val = (k : ℚ) + 1 / 2 then k + 1 else k)

/-- R12, R140, R143: what the bits of a temperature operand say: which patterns are NaNs and infinities, the value of every other
one, when it counts as negative (the sign bit set, but not for a NaN and not for `-0`), that no magnitude is decoded exactly where
`t[30:23]` is at least 147 (`2^20` and above, infinities, NaNs), and else what it is, with the `floor` taken of it. -/
def Obligations.TemperaturePatternHasItsValue : Prop :=
  ∀ t : BitVec 32,
    (f32val t = .nan ↔ expField t = 255 ∧ fracField t ≠ 0) ∧
    (∀ s : Bool, f32val t = .inf s ↔ expField t = 255 ∧ fracField t = 0 ∧ t.getLsbD 31 = s) ∧
    (∀ v : Frac, f32val t = .finite v →
      expField t < 255 ∧ 0 < v.den ∧ v.val = if t.getLsbD 31 then -patternMagnitude t else patternMagnitude t) ∧
    ((f32val t).isNeg = true ↔
      t.getLsbD 31 = true ∧ ¬(expField t = 255 ∧ fracField t ≠ 0) ∧ ¬(expField t = 0 ∧ fracField t = 0)) ∧
    ((f32val t).magnitude = none ↔ 147 ≤ expField t) ∧
    ∀ m : Frac, (f32val t).magnitude = some m → m.val = patternMagnitude t ∧ (tempInt m : Int) = ⌊m.val⌋

/-- R12: `rnd_exact` is the identity; `rnd_b32` of 0 is 0, of `-x` is `-rnd_b32(x)`, and of `x` with `2^e <= x < 2^(e+1)` the
multiple of `u = 2^(max(e, -126) - 23)` that the rule writes out: `n` units for `n = floor(x / u)`, one more where the rest is above
a half, or is a half and `n` is odd. -/
def Obligations.RoundingFollowsItsFormula : Prop :=
  ∀ x : Frac, 0 < x.den →
    round .exact x = x ∧ (x.val = 0 → (round .b32 x).val = 0) ∧ (round .b32 x.neg).val = -(round .b32 x).val ∧
    ∀ e : Int, (2 : ℚ) ^ e ≤ x.val → x.val < (2 : ℚ) ^ (e + 1) →
      let u : ℚ := (2 : ℚ) ^ (max e (-126) - 23)
      let n : Int := ⌊x.val / u⌋
      let r : ℚ := x.val / u - (n : ℚ)
      (round .b32 x).val = (if 1 / 2 < r ∨ (r = 1 / 2 ∧ n % 2 = 1) then ((n : ℚ) + 1) * u else (n : ℚ) * u)

/-- R12: both instances of `NUM.rnd` satisfy `rnd(x) = x` for every `x` that is a binary32 value, and both are monotone. -/
def Obligations.RoundingKeepsBinary32ValuesAndOrder : Prop :=
  ∀ r : Config.Rounding,
    (∀ (x v : Frac) (t : BitVec 32), 0 < x.den → f32val t = .finite v → x.val = v.val → (round r x).val = x.val) ∧
    ∀ x y : Frac, 0 < x.den → 0 < y.den → x.val ≤ y.val → (round r x).val ≤ (round r y).val

/-- R144, R145: the humidity digits: the tens, at most 25, in `F[7]` whole, the units, at most 9, in `hi(F[6])`, the sign nibble
and every other byte kept. -/
def Obligations.HumidityDigitsArePacked : Prop :=
  ∀ (h : Byte) (m : Memory),
    ((setHumidity h m).read 7).toNat = h.toNat / 10 ∧ h.toNat / 10 ≤ 25 ∧
    (hi ((setHumidity h m).read 6)).toNat = h.toNat % 10 ∧ lo ((setHumidity h m).read 6) = lo (m.read 6) ∧
    ∀ a, a ≠ 6 → a ≠ 7 → (setHumidity h m).read a = m.read a

/-! ### The bit encoder -/

/-- R100, R101: what ZERO and ONE leave: `TX`, six events, an expired timer, and nothing else. That an operation passes its waits
whole within one step is the model's choice, assumption 5. -/
def Obligations.ZeroAndOneEmitTheirSegments : Prop :=
  (∀ s : State, exec .zero s =
    .next { s with tx := true, tmr := 0#14, trace := s.trace ++ [.H, .W 512, .L, .W 1024, .H, .W 512] }) ∧
  ∀ s : State, exec .one s =
    .next { s with tx := false, tmr := 0#14, trace := s.trace ++ [.L, .W 512, .H, .W 1024, .L, .W 512] }

/-- R103, R104, R105, R161, R164: NIBBLE_LO, NIBBLE_HI, BYTE, PREAMBLE and the two postambles append the symbols of their bits, in
air order, and leave `TX` at the complement of the last bit, an expired timer, and nothing else changed. That an operation passes
its waits whole within one step is the model's choice, assumption 5. -/
def Obligations.LineOperationsEmitTheirBits : Prop :=
  ∀ (s : State) (v : Byte),
    exec (.nibbleLo v) s = .next { s with
      tx := !(v.getLsbD 3), tmr := 0#14
      trace := s.trace ++ bitsEvents [v.getLsbD 0, v.getLsbD 1, v.getLsbD 2, v.getLsbD 3] } ∧
    exec (.nibbleHi v) s = .next { s with
      tx := !(v.getLsbD 7), tmr := 0#14
      trace := s.trace ++ bitsEvents [v.getLsbD 4, v.getLsbD 5, v.getLsbD 6, v.getLsbD 7] } ∧
    exec (.byte v) s = .next { s with
      tx := !(v.getLsbD 7), tmr := 0#14
      trace := s.trace ++ bitsEvents ((List.range 8).map fun j => v.getLsbD j) } ∧
    exec .preamble s = .next { s with
      tx := false, tmr := 0#14, trace := s.trace ++ bitsEvents (List.replicate 16 true) } ∧
    exec .postambleT s = .next { s with
      tx := true, tmr := 0#14, trace := s.trace ++ bitsEvents (List.replicate 4 false) } ∧
    exec .postambleTH s = .next { s with
      tx := true, tmr := 0#14, trace := s.trace ++ bitsEvents (List.replicate 8 false) }

/-- R107: on the wire a sequence of symbols shows runs of 512 and 1024 ticks only, whatever the bits and the level before. -/
def Obligations.SymbolsShowOnlyShortRuns : Prop :=
  ∀ (l : Bool) (bits : List Bool) (run : Bool × Nat), run ∈ wireFrom l (bitsEvents bits) → run.2 = 512 ∨ run.2 = 1024

/-! ### The sequencer -/

/-- R173, R174, R175: a symbol step: the level and the duration of the segment, the events, and the position after `advance()`;
nothing else changes. -/
def Obligations.SymbolStepEmitsASegmentAndAdvances : Prop :=
  ∀ s : State, s.phase = .preamble ∨ s.phase = .payload ∨ s.phase = .postamble →
    let level := if s.seg = 1 then symbolBit s else !symbolBit s
    let ticks := if s.seg = 1 then 1024 else 512
    let t := s.sequencerStep
    t = { s with
      tx := level, tmr := BitVec.ofNat 14 ticks, trace := s.trace ++ [if level then .H else .L, .W ticks]
      seg := t.seg, bitcnt := t.bitcnt, phase := t.phase } ∧
    (s.seg.val < 2 → t.seg.val = s.seg.val + 1 ∧ t.bitcnt = s.bitcnt ∧ t.phase = s.phase) ∧
    (s.seg.val = 2 → t.seg = 0 ∧
      (s.bitcnt.toNat + 1 < symbolsHere s → t.bitcnt.toNat = s.bitcnt.toNat + 1 ∧ t.phase = s.phase) ∧
      (symbolsHere s ≤ s.bitcnt.toNat + 1 → t.bitcnt = 0#7 ∧
        (s.phase = .preamble → t.phase = .payload) ∧ (s.phase = .payload → t.phase = .postamble) ∧
        (s.phase = .postamble → t.phase = if s.rep then .done else .gap)))

/-- R176, R177, R178: the gap step, the done step, and no step in IDLE. -/
def Obligations.GapAndDoneSteps : Prop :=
  ∀ s : State,
    (s.phase = .gap → s.sequencerStep =
      { s with tx := false, tmr := 8192#14, rep := true, phase := .preamble, trace := s.trace ++ [.L, .W 8192] }) ∧
    (s.phase = .done → s.sequencerStep = { s with tx := false, rep := false, phase := .idle, trace := s.trace ++ [.L] }) ∧
    (s.phase = .idle → s.sequencerStep = s)

/-- R216, R217, R172: an edge while a send is in flight: without a tick a running timer stands; a tick counts it down by one; and
the tick that brings it from 1 to 0 takes the sequencer's step at that same edge. -/
def Obligations.TicksCountTheSegmentDown : Prop :=
  ∀ s : State, s.sample.rst = false → s.phase ≠ .idle → s.stuck = false →
    (s.sample.tickUs = false → s.tmr ≠ 0#14 → step s = .next { s with inputs := s.inputs.tail }) ∧
    (s.sample.tickUs = true → 1 < s.tmr.toNat →
      step s = .next { s with tmr := BitVec.ofNat 14 (s.tmr.toNat - 1), inputs := s.inputs.tail }) ∧
    (s.sample.tickUs = true → s.tmr = 1#14 →
      step s = .next { ({ s with tmr := 0#14 } : State).sequencerStep with inputs := s.inputs.tail })

/-- R178: an idle block at an edge with nothing to fetch does nothing, with or without a tick. -/
def Obligations.IdleBlockStaysIdle : Prop :=
  ∀ s : State, s.sample.rst = false → s.phase = .idle → s.tmr = 0#14 → s.encoderCall = none → s.sample.cmdValid = false →
    step s = .next { s with inputs := s.inputs.tail }

/-- R178, R219: "Only an accepted SEND with `CFG = 1` leaves `IDLE`", and it leaves it for the preamble. -/
def Obligations.OnlyAConfiguredSendLeavesIdle : Prop :=
  ∀ s t : State, step s = .next t → s.phase = .idle → t.phase ≠ .idle →
    s.sample.rst = false ∧ s.cfg = true ∧ t.phase = .preamble ∧ s.encoderCall = none ∧ s.sample.cmdValid = true ∧
    ∃ hum temp bok, decodeCommand s.sample.cmdData = .send hum temp bok

/-- R171: at an edge without reset the phase stays or moves along an edge of the phase graph, and on no other. -/
def Obligations.PhaseMovesOnlyOnTheGraph : Prop :=
  ∀ s t : State, s.sample.rst = false → step s = .next t → PhaseStep s.cfg s.rep s.phase t.phase

/-- R35 (I4), R190: no edge without reset that starts while a send is in flight writes `F`, `HC`, `CFG` or `PINSEL`. -/
def Obligations.BusyBlockKeepsItsConfiguration : Prop :=
  ∀ s t : State, s.sample.rst = false → s.phase ≠ .idle → step s = .next t →
    t.mem = s.mem ∧ t.hc = s.hc ∧ t.cfg = s.cfg ∧ t.pinsel = s.pinsel

/-- Every step keeps the invariant: the memory's canonical form, I1 to I3 and I5 of R35, the ranges of R28 and R30, and the rest
of `Inv`. -/
def Obligations.EveryStepKeepsTheInvariant : Prop :=
  ∀ s t : State, Inv s → step s = .next t → Inv t

/-- R210: in a state of the machine no command, no operand value, no frame content and no sequencer position faults or is
refused. -/
def Obligations.NoStateOfTheMachineStops : Prop :=
  ∀ s : State, Inv s → ∃ t, step s = .next t

/-- U4 of spec/93_implementation_defined.md: at an edge without reset a sequencer position that no run reaches is stuck. -/
def Obligations.ImpossiblePositionIsStuck : Prop :=
  ∀ s : State, s.sample.rst = false → s.phase ≠ .idle →
    (s.cfg = false ∨ 8192 < s.tmr.toNat ∨ (symbolsHere s ≤ s.bitcnt.toNat ∧ s.bitcnt ≠ 0#7)) →
    step s = .fault .sequencerStuck

/-- R170, R168: the whole transmission appends its trace to the trace, leaves `TX` low and the timer expired, and changes nothing
else; it has 1011 or 1155 events and takes 352256 or 401408 ticks. -/
def Obligations.TransmissionHasItsTraceAndCounts : Prop :=
  ∀ s : State,
    s.xmit = { s with tx := false, tmr := 0#14, trace := s.trace ++ xmitEvents s.hc s.mem } ∧
    (xmitEvents s.hc s.mem).length = (if s.hc then 1155 else 1011) ∧
    ticksOf (xmitEvents s.hc s.mem) = (if s.hc then 401408 else 352256) ∧
    sendTicks s.hc = (if s.hc then 401408 else 352256)

/-- R180, R196, R219: the small-step machine does what the big-step rules say. From a state of the machine that is idle and
configured, with a SEND presented, a tick at every edge after it and no reset, the machine is idle again after exactly the ticks
of R168, and its whole state is UPDATE followed by XMIT, whatever stood on the command port in between. That the first step of the
sequencer is taken at the acceptance edge is assumption 14, and that beyond the listed edges every edge brings a tick is
assumption 1. -/
def Obligations.SendRunsToTheWholeTransmission : Prop :=
  ∀ (s : State) (hum : Byte) (temp : BitVec 32) (bok : Bool), Inv s → s.phase = .idle → s.cfg = true →
    s.sample.rst = false → s.sample.cmdValid = true → decodeCommand s.sample.cmdData = .send hum temp bok →
    (∀ x ∈ s.inputs.tail, x.rst = false ∧ x.tickUs = true) →
      Host.Core.run core (1 + sendTicks s.hc) s =
        .next { (s.update hum temp bok).xmit with inputs := s.inputs.drop (1 + sendTicks s.hc) }

/-- R168, R171, R216, R219: whatever the tick source does, an edge without reset brings a send in flight one tick nearer to its end
if it brings a tick and leaves it as near as it was if it does not; the send is over exactly where no tick is left; and the edge
that accepts it leaves the ticks of R168. That the first segment is loaded at that same edge is assumption 14. -/
def Obligations.EveryTickBringsTheEndOneTickNearer : Prop :=
  (∀ s t : State, Inv s → s.sample.rst = false → s.phase ≠ .idle → step s = .next t →
    ticksLeft s = ticksLeft t + (if s.sample.tickUs then 1 else 0) ∧ (t.phase = .idle ↔ ticksLeft t = 0)) ∧
  ∀ s t : State, Inv s → s.phase = .idle → step s = .next t → t.phase ≠ .idle → ticksLeft t = sendTicks s.hc

/-! ### The outputs -/

/-- R32, R34: the status ports: `busy` and `cmd_ready`, `tx`, `pin_sel`, `hc_q`, `cfg_q`. -/
def Obligations.PortsShowTheRegisters : Prop :=
  ∀ s : State, (s.busy = true ↔ s.phase ≠ .idle) ∧ (s.cmdReady = true ↔ s.phase = .idle ∧ s.sample.rst = false) ∧
    s.txPort = s.tx ∧ s.pinSel = s.pinsel ∧ s.hcQ = s.hc ∧ s.cfgQ = s.cfg

/-- R63: the frame view port shows byte `i` in its bits `8*i+7 : 8*i`. -/
def Obligations.FrameViewShowsEveryByte : Prop :=
  ∀ (s : State) (i : Nat), i < 9 → s.frameQ.extractLsb' (8 * i) 8 = s.mem.read i

/-- R163: in a configured block the first sixteen payload bits are those of the variant's type constant, and the first is 0. -/
def Obligations.PayloadStartsWithTheTypeBits : Prop :=
  ∀ s : State, Inv s → s.cfg = true →
    (dataBits (payloadBytes s.hc s.mem)).take 16 =
      if s.hc then [false, true, false, true, true, false, false, false, true, false, true, true, false, true, false, false]
      else [false, true, false, true, false, true, true, true, false, false, true, true, false, false, true, false]
end

