-- ==== Sys2Proof/Laws/Decode.lean ====
section
/-! SUPPORT. The fields of an assembled command word and of an assembled line word (spec/30_encoding.md R70, R87). -/
namespace Sys2Proof

theorem fieldOp_commandWord (op : BitVec 4) (a b c : Byte) (flag : Bool) (temp : BitVec 32) :
    fieldOp (commandWord op a b c flag temp) = op := by
  apply BitVec.eq_of_getLsbD_eq
  intro i hi
  simp only [fieldOp, commandWord, BitVec.getLsbD_extractLsb', BitVec.getLsbD_append]
  interval_cases i <;> simp

theorem fieldA_commandWord (op : BitVec 4) (a b c : Byte) (flag : Bool) (temp : BitVec 32) :
    fieldA (commandWord op a b c flag temp) = a := by
  apply BitVec.eq_of_getLsbD_eq
  intro i hi
  simp only [fieldA, commandWord, BitVec.getLsbD_extractLsb', BitVec.getLsbD_append]
  interval_cases i <;> simp

theorem fieldB_commandWord (op : BitVec 4) (a b c : Byte) (flag : Bool) (temp : BitVec 32) :
    fieldB (commandWord op a b c flag temp) = b := by
  apply BitVec.eq_of_getLsbD_eq
  intro i hi
  simp only [fieldB, commandWord, BitVec.getLsbD_extractLsb', BitVec.getLsbD_append]
  interval_cases i <;> simp

theorem fieldC_commandWord (op : BitVec 4) (a b c : Byte) (flag : Bool) (temp : BitVec 32) :
    fieldC (commandWord op a b c flag temp) = c := by
  apply BitVec.eq_of_getLsbD_eq
  intro i hi
  simp only [fieldC, commandWord, BitVec.getLsbD_extractLsb', BitVec.getLsbD_append]
  interval_cases i <;> simp

theorem fieldFlag_commandWord (op : BitVec 4) (a b c : Byte) (flag : Bool) (temp : BitVec 32) :
    fieldFlag (commandWord op a b c flag temp) = flag := by
  simp only [fieldFlag, commandWord, BitVec.getLsbD_append]
  simp

theorem fieldTemp_commandWord (op : BitVec 4) (a b c : Byte) (flag : Bool) (temp : BitVec 32) :
    fieldTemp (commandWord op a b c flag temp) = temp := by
  apply BitVec.eq_of_getLsbD_eq
  intro i hi
  simp only [fieldTemp, commandWord, BitVec.getLsbD_extractLsb', BitVec.getLsbD_append]
  simp [hi]

theorem linePattern_lineWord (kind : Byte) (pattern : BitVec 16) : linePattern (lineWord kind pattern) = pattern :=
  BitVec.extractLsb'_append_eq_right

theorem lineKind_lineWord (kind : Byte) (pattern : BitVec 16) : lineKind (lineWord kind pattern) = kind :=
  BitVec.extractLsb'_append_eq_left

end Sys2Proof
end

