-- ==== Sys2Proof/Laws/State.lean ====
section
/-! SUPPORT. What each update of the state does to each field, so that no proof unfolds a record update. -/
namespace Sys2Proof.Machine

/-! ### setLevel -/

@[simp] theorem State.setLevel_mem (b : Bool) (s : State) : (s.setLevel b).mem = s.mem := rfl
@[simp] theorem State.setLevel_hc (b : Bool) (s : State) : (s.setLevel b).hc = s.hc := rfl
@[simp] theorem State.setLevel_cfg (b : Bool) (s : State) : (s.setLevel b).cfg = s.cfg := rfl
@[simp] theorem State.setLevel_pinsel (b : Bool) (s : State) : (s.setLevel b).pinsel = s.pinsel := rfl
@[simp] theorem State.setLevel_phase (b : Bool) (s : State) : (s.setLevel b).phase = s.phase := rfl
@[simp] theorem State.setLevel_rep (b : Bool) (s : State) : (s.setLevel b).rep = s.rep := rfl
@[simp] theorem State.setLevel_bitcnt (b : Bool) (s : State) : (s.setLevel b).bitcnt = s.bitcnt := rfl
@[simp] theorem State.setLevel_seg (b : Bool) (s : State) : (s.setLevel b).seg = s.seg := rfl
@[simp] theorem State.setLevel_tmr (b : Bool) (s : State) : (s.setLevel b).tmr = s.tmr := rfl
@[simp] theorem State.setLevel_tx (b : Bool) (s : State) : (s.setLevel b).tx = b := rfl
@[simp] theorem State.setLevel_trace (b : Bool) (s : State) : (s.setLevel b).trace = s.trace ++ [levelEvent b] := rfl
@[simp] theorem State.setLevel_draws (b : Bool) (s : State) : (s.setLevel b).draws = s.draws := rfl
@[simp] theorem State.setLevel_inputs (b : Bool) (s : State) : (s.setLevel b).inputs = s.inputs := rfl
@[simp] theorem State.setLevel_encoderCall (b : Bool) (s : State) : (s.setLevel b).encoderCall = s.encoderCall := rfl

/-! ### loadTimer -/

@[simp] theorem State.loadTimer_mem (d : Nat) (s : State) : (s.loadTimer d).mem = s.mem := rfl
@[simp] theorem State.loadTimer_hc (d : Nat) (s : State) : (s.loadTimer d).hc = s.hc := rfl
@[simp] theorem State.loadTimer_cfg (d : Nat) (s : State) : (s.loadTimer d).cfg = s.cfg := rfl
@[simp] theorem State.loadTimer_pinsel (d : Nat) (s : State) : (s.loadTimer d).pinsel = s.pinsel := rfl
@[simp] theorem State.loadTimer_phase (d : Nat) (s : State) : (s.loadTimer d).phase = s.phase := rfl
@[simp] theorem State.loadTimer_rep (d : Nat) (s : State) : (s.loadTimer d).rep = s.rep := rfl
@[simp] theorem State.loadTimer_bitcnt (d : Nat) (s : State) : (s.loadTimer d).bitcnt = s.bitcnt := rfl
@[simp] theorem State.loadTimer_seg (d : Nat) (s : State) : (s.loadTimer d).seg = s.seg := rfl
@[simp] theorem State.loadTimer_tmr (d : Nat) (s : State) : (s.loadTimer d).tmr = BitVec.ofNat 14 d := rfl
@[simp] theorem State.loadTimer_tx (d : Nat) (s : State) : (s.loadTimer d).tx = s.tx := rfl
@[simp] theorem State.loadTimer_trace (d : Nat) (s : State) : (s.loadTimer d).trace = s.trace ++ [.W d] := rfl
@[simp] theorem State.loadTimer_draws (d : Nat) (s : State) : (s.loadTimer d).draws = s.draws := rfl
@[simp] theorem State.loadTimer_inputs (d : Nat) (s : State) : (s.loadTimer d).inputs = s.inputs := rfl
@[simp] theorem State.loadTimer_encoderCall (d : Nat) (s : State) : (s.loadTimer d).encoderCall = s.encoderCall := rfl

/-! ### wait -/

@[simp] theorem State.wait_mem (d : Nat) (s : State) : (s.wait d).mem = s.mem := rfl
@[simp] theorem State.wait_hc (d : Nat) (s : State) : (s.wait d).hc = s.hc := rfl
@[simp] theorem State.wait_cfg (d : Nat) (s : State) : (s.wait d).cfg = s.cfg := rfl
@[simp] theorem State.wait_pinsel (d : Nat) (s : State) : (s.wait d).pinsel = s.pinsel := rfl
@[simp] theorem State.wait_phase (d : Nat) (s : State) : (s.wait d).phase = s.phase := rfl
@[simp] theorem State.wait_rep (d : Nat) (s : State) : (s.wait d).rep = s.rep := rfl
@[simp] theorem State.wait_bitcnt (d : Nat) (s : State) : (s.wait d).bitcnt = s.bitcnt := rfl
@[simp] theorem State.wait_seg (d : Nat) (s : State) : (s.wait d).seg = s.seg := rfl
@[simp] theorem State.wait_tmr (d : Nat) (s : State) : (s.wait d).tmr = 0#14 := rfl
@[simp] theorem State.wait_tx (d : Nat) (s : State) : (s.wait d).tx = s.tx := rfl
@[simp] theorem State.wait_trace (d : Nat) (s : State) : (s.wait d).trace = s.trace ++ [.W d] := rfl
@[simp] theorem State.wait_draws (d : Nat) (s : State) : (s.wait d).draws = s.draws := rfl
@[simp] theorem State.wait_inputs (d : Nat) (s : State) : (s.wait d).inputs = s.inputs := rfl
@[simp] theorem State.wait_encoderCall (d : Nat) (s : State) : (s.wait d).encoderCall = s.encoderCall := rfl

/-! ### nextInputs -/

@[simp] theorem State.nextInputs_mem (s : State) : (s.nextInputs).mem = s.mem := rfl
@[simp] theorem State.nextInputs_hc (s : State) : (s.nextInputs).hc = s.hc := rfl
@[simp] theorem State.nextInputs_cfg (s : State) : (s.nextInputs).cfg = s.cfg := rfl
@[simp] theorem State.nextInputs_pinsel (s : State) : (s.nextInputs).pinsel = s.pinsel := rfl
@[simp] theorem State.nextInputs_phase (s : State) : (s.nextInputs).phase = s.phase := rfl
@[simp] theorem State.nextInputs_rep (s : State) : (s.nextInputs).rep = s.rep := rfl
@[simp] theorem State.nextInputs_bitcnt (s : State) : (s.nextInputs).bitcnt = s.bitcnt := rfl
@[simp] theorem State.nextInputs_seg (s : State) : (s.nextInputs).seg = s.seg := rfl
@[simp] theorem State.nextInputs_tmr (s : State) : (s.nextInputs).tmr = s.tmr := rfl
@[simp] theorem State.nextInputs_tx (s : State) : (s.nextInputs).tx = s.tx := rfl
@[simp] theorem State.nextInputs_trace (s : State) : (s.nextInputs).trace = s.trace := rfl
@[simp] theorem State.nextInputs_draws (s : State) : (s.nextInputs).draws = s.draws := rfl
@[simp] theorem State.nextInputs_inputs (s : State) : (s.nextInputs).inputs = s.inputs.tail := rfl
@[simp] theorem State.nextInputs_encoderCall (s : State) : (s.nextInputs).encoderCall = s.encoderCall := rfl

/-! ### takeCall -/

@[simp] theorem State.takeCall_mem (s : State) : (s.takeCall).mem = s.mem := rfl
@[simp] theorem State.takeCall_hc (s : State) : (s.takeCall).hc = s.hc := rfl
@[simp] theorem State.takeCall_cfg (s : State) : (s.takeCall).cfg = s.cfg := rfl
@[simp] theorem State.takeCall_pinsel (s : State) : (s.takeCall).pinsel = s.pinsel := rfl
@[simp] theorem State.takeCall_phase (s : State) : (s.takeCall).phase = s.phase := rfl
@[simp] theorem State.takeCall_rep (s : State) : (s.takeCall).rep = s.rep := rfl
@[simp] theorem State.takeCall_bitcnt (s : State) : (s.takeCall).bitcnt = s.bitcnt := rfl
@[simp] theorem State.takeCall_seg (s : State) : (s.takeCall).seg = s.seg := rfl
@[simp] theorem State.takeCall_tmr (s : State) : (s.takeCall).tmr = s.tmr := rfl
@[simp] theorem State.takeCall_tx (s : State) : (s.takeCall).tx = s.tx := rfl
@[simp] theorem State.takeCall_trace (s : State) : (s.takeCall).trace = s.trace := rfl
@[simp] theorem State.takeCall_draws (s : State) : (s.takeCall).draws = s.draws := rfl
@[simp] theorem State.takeCall_inputs (s : State) : (s.takeCall).inputs = s.inputs := rfl
@[simp] theorem State.takeCall_encoderCall (s : State) : (s.takeCall).encoderCall = none := rfl

/-! ### enter -/

@[simp] theorem State.enter_mem (s : State) : (s.enter).mem = s.mem := rfl
@[simp] theorem State.enter_hc (s : State) : (s.enter).hc = s.hc := rfl
@[simp] theorem State.enter_cfg (s : State) : (s.enter).cfg = s.cfg := rfl
@[simp] theorem State.enter_pinsel (s : State) : (s.enter).pinsel = s.pinsel := rfl
@[simp] theorem State.enter_phase (s : State) : (s.enter).phase = .preamble := rfl
@[simp] theorem State.enter_rep (s : State) : (s.enter).rep = false := rfl
@[simp] theorem State.enter_bitcnt (s : State) : (s.enter).bitcnt = 0#7 := rfl
@[simp] theorem State.enter_seg (s : State) : (s.enter).seg = 0 := rfl
@[simp] theorem State.enter_tmr (s : State) : (s.enter).tmr = 0#14 := rfl
@[simp] theorem State.enter_tx (s : State) : (s.enter).tx = s.tx := rfl
@[simp] theorem State.enter_trace (s : State) : (s.enter).trace = s.trace := rfl
@[simp] theorem State.enter_draws (s : State) : (s.enter).draws = s.draws := rfl
@[simp] theorem State.enter_inputs (s : State) : (s.enter).inputs = s.inputs := rfl
@[simp] theorem State.enter_encoderCall (s : State) : (s.enter).encoderCall = s.encoderCall := rfl

/-! ### gapStep -/

@[simp] theorem State.gapStep_mem (s : State) : (s.gapStep).mem = s.mem := rfl
@[simp] theorem State.gapStep_hc (s : State) : (s.gapStep).hc = s.hc := rfl
@[simp] theorem State.gapStep_cfg (s : State) : (s.gapStep).cfg = s.cfg := rfl
@[simp] theorem State.gapStep_pinsel (s : State) : (s.gapStep).pinsel = s.pinsel := rfl
@[simp] theorem State.gapStep_phase (s : State) : (s.gapStep).phase = .preamble := rfl
@[simp] theorem State.gapStep_rep (s : State) : (s.gapStep).rep = true := rfl
@[simp] theorem State.gapStep_bitcnt (s : State) : (s.gapStep).bitcnt = s.bitcnt := rfl
@[simp] theorem State.gapStep_seg (s : State) : (s.gapStep).seg = s.seg := rfl
@[simp] theorem State.gapStep_tmr (s : State) : (s.gapStep).tmr = BitVec.ofNat 14 Config.gapUs := rfl
@[simp] theorem State.gapStep_tx (s : State) : (s.gapStep).tx = false := rfl
@[simp] theorem State.gapStep_trace (s : State) : (s.gapStep).trace = s.trace ++ [levelEvent false] ++ [.W Config.gapUs] := rfl
@[simp] theorem State.gapStep_draws (s : State) : (s.gapStep).draws = s.draws := rfl
@[simp] theorem State.gapStep_inputs (s : State) : (s.gapStep).inputs = s.inputs := rfl
@[simp] theorem State.gapStep_encoderCall (s : State) : (s.gapStep).encoderCall = s.encoderCall := rfl

/-! ### doneStep -/

@[simp] theorem State.doneStep_mem (s : State) : (s.doneStep).mem = s.mem := rfl
@[simp] theorem State.doneStep_hc (s : State) : (s.doneStep).hc = s.hc := rfl
@[simp] theorem State.doneStep_cfg (s : State) : (s.doneStep).cfg = s.cfg := rfl
@[simp] theorem State.doneStep_pinsel (s : State) : (s.doneStep).pinsel = s.pinsel := rfl
@[simp] theorem State.doneStep_phase (s : State) : (s.doneStep).phase = .idle := rfl
@[simp] theorem State.doneStep_rep (s : State) : (s.doneStep).rep = false := rfl
@[simp] theorem State.doneStep_bitcnt (s : State) : (s.doneStep).bitcnt = s.bitcnt := rfl
@[simp] theorem State.doneStep_seg (s : State) : (s.doneStep).seg = s.seg := rfl
@[simp] theorem State.doneStep_tmr (s : State) : (s.doneStep).tmr = s.tmr := rfl
@[simp] theorem State.doneStep_tx (s : State) : (s.doneStep).tx = false := rfl
@[simp] theorem State.doneStep_trace (s : State) : (s.doneStep).trace = s.trace ++ [levelEvent false] := rfl
@[simp] theorem State.doneStep_draws (s : State) : (s.doneStep).draws = s.draws := rfl
@[simp] theorem State.doneStep_inputs (s : State) : (s.doneStep).inputs = s.inputs := rfl
@[simp] theorem State.doneStep_encoderCall (s : State) : (s.doneStep).encoderCall = s.encoderCall := rfl

/-! ### update -/

@[simp] theorem State.update_mem (hum : Byte) (temp : BitVec 32) (bok : Bool) (s : State) : (s.update hum temp bok).mem = updateFrame Config.numRnd (Config.freeDigits s.draws) (Config.freeTenths s.draws) s.hc hum temp bok s.mem := rfl
@[simp] theorem State.update_hc (hum : Byte) (temp : BitVec 32) (bok : Bool) (s : State) : (s.update hum temp bok).hc = s.hc := rfl
@[simp] theorem State.update_cfg (hum : Byte) (temp : BitVec 32) (bok : Bool) (s : State) : (s.update hum temp bok).cfg = s.cfg := rfl
@[simp] theorem State.update_pinsel (hum : Byte) (temp : BitVec 32) (bok : Bool) (s : State) : (s.update hum temp bok).pinsel = s.pinsel := rfl
@[simp] theorem State.update_phase (hum : Byte) (temp : BitVec 32) (bok : Bool) (s : State) : (s.update hum temp bok).phase = s.phase := rfl
@[simp] theorem State.update_rep (hum : Byte) (temp : BitVec 32) (bok : Bool) (s : State) : (s.update hum temp bok).rep = s.rep := rfl
@[simp] theorem State.update_bitcnt (hum : Byte) (temp : BitVec 32) (bok : Bool) (s : State) : (s.update hum temp bok).bitcnt = s.bitcnt := rfl
@[simp] theorem State.update_seg (hum : Byte) (temp : BitVec 32) (bok : Bool) (s : State) : (s.update hum temp bok).seg = s.seg := rfl
@[simp] theorem State.update_tmr (hum : Byte) (temp : BitVec 32) (bok : Bool) (s : State) : (s.update hum temp bok).tmr = s.tmr := rfl
@[simp] theorem State.update_tx (hum : Byte) (temp : BitVec 32) (bok : Bool) (s : State) : (s.update hum temp bok).tx = s.tx := rfl
@[simp] theorem State.update_trace (hum : Byte) (temp : BitVec 32) (bok : Bool) (s : State) : (s.update hum temp bok).trace = s.trace := rfl
@[simp] theorem State.update_draws (hum : Byte) (temp : BitVec 32) (bok : Bool) (s : State) : (s.update hum temp bok).draws = if (f32val temp).magnitude.isSome then s.draws else s.draws + 1 := rfl
@[simp] theorem State.update_inputs (hum : Byte) (temp : BitVec 32) (bok : Bool) (s : State) : (s.update hum temp bok).inputs = s.inputs := rfl
@[simp] theorem State.update_encoderCall (hum : Byte) (temp : BitVec 32) (bok : Bool) (s : State) : (s.update hum temp bok).encoderCall = s.encoderCall := rfl

/-! ### resetEdge -/

@[simp] theorem State.resetEdge_mem (s : State) : s.resetEdge.mem = ⟨[]⟩ := rfl
@[simp] theorem State.resetEdge_hc (s : State) : s.resetEdge.hc = false := rfl
@[simp] theorem State.resetEdge_cfg (s : State) : s.resetEdge.cfg = false := rfl
@[simp] theorem State.resetEdge_pinsel (s : State) : s.resetEdge.pinsel = 0x00#8 := rfl
@[simp] theorem State.resetEdge_phase (s : State) : s.resetEdge.phase = .idle := rfl
@[simp] theorem State.resetEdge_rep (s : State) : s.resetEdge.rep = false := rfl
@[simp] theorem State.resetEdge_bitcnt (s : State) : s.resetEdge.bitcnt = 0#7 := rfl
@[simp] theorem State.resetEdge_seg (s : State) : s.resetEdge.seg = 0 := rfl
@[simp] theorem State.resetEdge_tmr (s : State) : s.resetEdge.tmr = 0#14 := rfl
@[simp] theorem State.resetEdge_tx (s : State) : s.resetEdge.tx = false := rfl
@[simp] theorem State.resetEdge_trace (s : State) : s.resetEdge.trace = s.resetTrace := rfl
@[simp] theorem State.resetEdge_draws (s : State) : s.resetEdge.draws = s.draws := rfl
@[simp] theorem State.resetEdge_inputs (s : State) : s.resetEdge.inputs = s.inputs.tail := rfl
@[simp] theorem State.resetEdge_encoderCall (s : State) : s.resetEdge.encoderCall = none := rfl

/-! ### The updates with a condition: tick, countTick, advance -/

/-- A tick changes `TMR` and nothing else (spec/60_exceptions.md R216). -/
theorem State.tick_eq (s : State) : s.tick = { s with tmr := if s.tmr = 0#14 then 0#14 else s.tmr - 1#14 } := by
  unfold State.tick
  split
  · rename_i h
    rw [← h]
  · rfl

@[simp] theorem State.tick_mem (s : State) : s.tick.mem = s.mem := by rw [State.tick_eq]
@[simp] theorem State.tick_hc (s : State) : s.tick.hc = s.hc := by rw [State.tick_eq]
@[simp] theorem State.tick_cfg (s : State) : s.tick.cfg = s.cfg := by rw [State.tick_eq]
@[simp] theorem State.tick_pinsel (s : State) : s.tick.pinsel = s.pinsel := by rw [State.tick_eq]
@[simp] theorem State.tick_phase (s : State) : s.tick.phase = s.phase := by rw [State.tick_eq]
@[simp] theorem State.tick_rep (s : State) : s.tick.rep = s.rep := by rw [State.tick_eq]
@[simp] theorem State.tick_bitcnt (s : State) : s.tick.bitcnt = s.bitcnt := by rw [State.tick_eq]
@[simp] theorem State.tick_seg (s : State) : s.tick.seg = s.seg := by rw [State.tick_eq]
@[simp] theorem State.tick_tx (s : State) : s.tick.tx = s.tx := by rw [State.tick_eq]
@[simp] theorem State.tick_trace (s : State) : s.tick.trace = s.trace := by rw [State.tick_eq]
@[simp] theorem State.tick_draws (s : State) : s.tick.draws = s.draws := by rw [State.tick_eq]
@[simp] theorem State.tick_inputs (s : State) : s.tick.inputs = s.inputs := by rw [State.tick_eq]
@[simp] theorem State.tick_encoderCall (s : State) : s.tick.encoderCall = s.encoderCall := by rw [State.tick_eq]

@[simp] theorem State.tick_tmr (s : State) : s.tick.tmr = if s.tmr = 0#14 then 0#14 else s.tmr - 1#14 := by
  rw [State.tick_eq]

@[simp] theorem State.countTick_mem (s : State) : s.countTick.mem = s.mem := by
  unfold State.countTick; split <;> simp
@[simp] theorem State.countTick_hc (s : State) : s.countTick.hc = s.hc := by
  unfold State.countTick; split <;> simp
@[simp] theorem State.countTick_cfg (s : State) : s.countTick.cfg = s.cfg := by
  unfold State.countTick; split <;> simp
@[simp] theorem State.countTick_pinsel (s : State) : s.countTick.pinsel = s.pinsel := by
  unfold State.countTick; split <;> simp
@[simp] theorem State.countTick_phase (s : State) : s.countTick.phase = s.phase := by
  unfold State.countTick; split <;> simp
@[simp] theorem State.countTick_rep (s : State) : s.countTick.rep = s.rep := by
  unfold State.countTick; split <;> simp
@[simp] theorem State.countTick_bitcnt (s : State) : s.countTick.bitcnt = s.bitcnt := by
  unfold State.countTick; split <;> simp
@[simp] theorem State.countTick_seg (s : State) : s.countTick.seg = s.seg := by
  unfold State.countTick; split <;> simp
@[simp] theorem State.countTick_tx (s : State) : s.countTick.tx = s.tx := by
  unfold State.countTick; split <;> simp
@[simp] theorem State.countTick_trace (s : State) : s.countTick.trace = s.trace := by
  unfold State.countTick; split <;> simp
@[simp] theorem State.countTick_draws (s : State) : s.countTick.draws = s.draws := by
  unfold State.countTick; split <;> simp
@[simp] theorem State.countTick_inputs (s : State) : s.countTick.inputs = s.inputs := by
  unfold State.countTick; split <;> simp
@[simp] theorem State.countTick_encoderCall (s : State) : s.countTick.encoderCall = s.encoderCall := by
  unfold State.countTick; split <;> simp

theorem State.countTick_tmr (s : State) :
    s.countTick.tmr = if s.sample.tickUs = true ∧ s.tmr ≠ 0#14 then s.tmr - 1#14 else s.tmr := by
  unfold State.countTick
  by_cases h : s.sample.tickUs = true <;> by_cases h0 : s.tmr = 0#14 <;> simp [h, h0]

@[simp] theorem State.advance_mem (s : State) : s.advance.mem = s.mem := by
  unfold State.advance; split <;> (try split) <;> rfl
@[simp] theorem State.advance_hc (s : State) : s.advance.hc = s.hc := by
  unfold State.advance; split <;> (try split) <;> rfl
@[simp] theorem State.advance_cfg (s : State) : s.advance.cfg = s.cfg := by
  unfold State.advance; split <;> (try split) <;> rfl
@[simp] theorem State.advance_pinsel (s : State) : s.advance.pinsel = s.pinsel := by
  unfold State.advance; split <;> (try split) <;> rfl
@[simp] theorem State.advance_rep (s : State) : s.advance.rep = s.rep := by
  unfold State.advance; split <;> (try split) <;> rfl
@[simp] theorem State.advance_tmr (s : State) : s.advance.tmr = s.tmr := by
  unfold State.advance; split <;> (try split) <;> rfl
@[simp] theorem State.advance_tx (s : State) : s.advance.tx = s.tx := by
  unfold State.advance; split <;> (try split) <;> rfl
@[simp] theorem State.advance_trace (s : State) : s.advance.trace = s.trace := by
  unfold State.advance; split <;> (try split) <;> rfl
@[simp] theorem State.advance_draws (s : State) : s.advance.draws = s.draws := by
  unfold State.advance; split <;> (try split) <;> rfl
@[simp] theorem State.advance_inputs (s : State) : s.advance.inputs = s.inputs := by
  unfold State.advance; split <;> (try split) <;> rfl
@[simp] theorem State.advance_encoderCall (s : State) : s.advance.encoderCall = s.encoderCall := by
  unfold State.advance; split <;> (try split) <;> rfl

end Sys2Proof.Machine
end

