-- ==== Sys2Proof/Laws/Encoder.lean ====
section
/-! SUPPORT. Each operation of the bit encoder, said once as one record update, and the counts of the line code. -/
namespace Sys2Proof.Machine

@[simp] theorem segLevel_zero (b : Bool) : segLevel b 0 = !b := rfl
@[simp] theorem segLevel_one (b : Bool) : segLevel b 1 = b := rfl
@[simp] theorem segLevel_two (b : Bool) : segLevel b 2 = !b := rfl

/-- A symbol writes `TX`, the expired timer and the trace, and nothing else (spec/40_bitencoder.md R100 to R102). -/
theorem State.symbol_eq (b : Bool) (s : State) :
    s.symbol b = { s with tx := !b, tmr := 0#14, trace := s.trace ++ symbolEvents b } := by
  cases b <;>
    simp [State.symbol, State.emitZero, State.emitOne, State.setLevel, State.wait, State.loadTimer, symbolEvents, segEvents,
      segTicks, segLevel]

theorem bitsEvents_append (as bs : List Bool) : bitsEvents (as ++ bs) = bitsEvents as ++ bitsEvents bs := by
  induction as with
  | nil => rfl
  | cons a as ih => simp [bitsEvents, ih]

theorem dataBits_append (us vs : List Byte) : dataBits (us ++ vs) = dataBits us ++ dataBits vs := by
  induction us with
  | nil => rfl
  | cons u us ih => simp [dataBits, ih]

theorem State.emitNibbleLo_eq (v : Byte) (s : State) :
    s.emitNibbleLo v =
      { s with
        tx := !(v.getLsbD 3), tmr := 0#14
        trace := s.trace ++ bitsEvents [v.getLsbD 0, v.getLsbD 1, v.getLsbD 2, v.getLsbD 3] } := by
  simp [State.emitNibbleLo, State.symbol_eq, bitsEvents]

theorem State.emitNibbleHi_eq (v : Byte) (s : State) :
    s.emitNibbleHi v =
      { s with
        tx := !(v.getLsbD 7), tmr := 0#14
        trace := s.trace ++ bitsEvents [v.getLsbD 4, v.getLsbD 5, v.getLsbD 6, v.getLsbD 7] } := by
  simp [State.emitNibbleHi, State.symbol_eq, bitsEvents]

theorem State.emitByte_eq (v : Byte) (s : State) :
    s.emitByte v = { s with tx := !(v.getLsbD 7), tmr := 0#14, trace := s.trace ++ bitsEvents (byteBits v) } := by
  simp [State.emitByte, State.emitNibbleLo_eq, State.emitNibbleHi_eq, bitsEvents, byteBits]

/-- The level after a sequence of symbols that starts at level `l`. -/
def levelAfterBits (l : Bool) : List Bool → Bool
  | [] => l
  | b :: bs => levelAfterBits (!b) bs

theorem levelAfterBits_append (l : Bool) (as bs : List Bool) :
    levelAfterBits l (as ++ bs) = levelAfterBits (levelAfterBits l as) bs := by
  induction as generalizing l with
  | nil => rfl
  | cons a as ih => exact ih (!a)

/-- DATA over a buffer that is not empty (spec/40_bitencoder.md R106). -/
theorem State.emitData_eq (v : Byte) (vs : List Byte) (s : State) :
    s.emitData (v :: vs) =
      { s with
        tx := levelAfterBits s.tx (dataBits (v :: vs)), tmr := 0#14, trace := s.trace ++ bitsEvents (dataBits (v :: vs)) } := by
  induction vs generalizing v s with
  | nil => simp [State.emitData, State.emitByte_eq, dataBits, byteBits, levelAfterBits]
  | cons w ws ih =>
    rw [State.emitData, ih, State.emitByte_eq]
    simp [dataBits, byteBits, levelAfterBits, bitsEvents]

/-! ### Counts -/

theorem bitsEvents_length (bs : List Bool) : (bitsEvents bs).length = 6 * bs.length := by
  induction bs with
  | nil => rfl
  | cons b bs ih => simp [bitsEvents, symbolEvents, segEvents, ih]; omega

theorem ticksOf_append (as bs : List Event) : ticksOf (as ++ bs) = ticksOf as + ticksOf bs := by
  induction as with
  | nil => simp [ticksOf]
  | cons a as ih => cases a <;> simp [ticksOf, ih, Nat.add_assoc]

theorem ticksOf_symbolEvents (b : Bool) : ticksOf (symbolEvents b) = Config.bitUs := by
  cases b <;> rfl

theorem ticksOf_bitsEvents (bs : List Bool) : ticksOf (bitsEvents bs) = Config.bitUs * bs.length := by
  induction bs with
  | nil => rfl
  | cons b bs ih =>
    simp only [bitsEvents, ticksOf_append, ticksOf_symbolEvents, ih, List.length_cons]
    ring

theorem dataBits_length (vs : List Byte) : (dataBits vs).length = 8 * vs.length := by
  induction vs with
  | nil => rfl
  | cons v vs ih => simp [dataBits, byteBits, ih]; omega

theorem copyBits_length (hc : Bool) (m : Memory) : (copyBits hc m).length = if hc then 96 else 84 := by
  cases hc <;>
    simp [copyBits, dataBits_length, payloadBytes, flen, Config.preBits, Config.postBitsT, Config.postBitsTH, Config.flenT,
      Config.flenTH]

theorem levelAfter_append (l : Bool) (as bs : List Event) : levelAfter l (as ++ bs) = levelAfter (levelAfter l as) bs := by
  induction as generalizing l with
  | nil => rfl
  | cons a as ih => cases a <;> exact ih _

@[simp] theorem levelAfter_levelEvent (l b : Bool) : levelAfter l [levelEvent b] = b := by cases b <;> rfl

@[simp] theorem levelAfter_wait (l : Bool) (d : Nat) : levelAfter l [.W d] = l := rfl

/-- Cutting a wait short leaves the last level as it is (spec/70_reset_and_hazards.md R232). -/
theorem levelAfter_cutShort (l : Bool) (left : Nat) (es : List Event) : levelAfter l (cutShort left es) = levelAfter l es := by
  unfold cutShort
  split
  · rename_i d h
    have hes : es.dropLast ++ [.W d] = es := List.dropLast_append_getLast? _ (by simp [h])
    conv_rhs => rw [← hes]
    rw [levelAfter_append, levelAfter_append]
    split <;> rfl
  · rfl

/-! ### The big-step transmission -/

/-- PREAMBLE (spec/43_tx_sequencer.md R161): sixteen ONEs, and the line is low after them. -/
theorem State.emitPreamble_eq (s : State) :
    s.emitPreamble =
      { s with tx := false, tmr := 0#14, trace := s.trace ++ bitsEvents (List.replicate Config.preBits true) } := by
  unfold State.emitPreamble
  rw [State.emitData_eq]
  simp [dataBits, byteBits, levelAfterBits, Config.preBits, List.replicate]

/-- PAYLOAD (spec/43_tx_sequencer.md R162). -/
theorem State.emitPayload_eq (s : State) :
    s.emitPayload =
      { s with
        tx := levelAfterBits s.tx (dataBits (payloadBytes s.hc s.mem)), tmr := 0#14
        trace := s.trace ++ bitsEvents (dataBits (payloadBytes s.hc s.mem)) } := by
  have hp : ∃ v vs, payloadBytes s.hc s.mem = v :: vs := by
    cases h : s.hc <;> exact ⟨_, _, rfl⟩
  obtain ⟨v, vs, hv⟩ := hp
  unfold State.emitPayload
  rw [hv, State.emitData_eq]

/-- POSTAMBLE (spec/43_tx_sequencer.md R164): four or eight ZEROs, and the line is high after them. -/
theorem State.emitPostamble_eq (s : State) :
    s.emitPostamble =
      { s with
        tx := true, tmr := 0#14
        trace := s.trace ++ bitsEvents (List.replicate (if s.hc then Config.postBitsTH else Config.postBitsT) false) } := by
  unfold State.emitPostamble
  split <;> rename_i h
  · rw [State.emitByte_eq]
    simp [byteBits, Config.postBitsTH, List.replicate, h]
  · rw [State.emitNibbleLo_eq]
    simp [Config.postBitsT, List.replicate, h]

/-- One copy of the frame on air (spec/43_tx_sequencer.md R165). -/
theorem State.frameTx_eq (s : State) :
    s.frameTx = { s with tx := true, tmr := 0#14, trace := s.trace ++ bitsEvents (copyBits s.hc s.mem) } := by
  simp [State.frameTx, State.emitPreamble_eq, State.emitPayload_eq, State.emitPostamble_eq, copyBits, bitsEvents_append]

/-- The whole transmission (spec/43_tx_sequencer.md R170). -/
theorem State.xmit_eq (s : State) :
    s.xmit = { s with tx := false, tmr := 0#14, trace := s.trace ++ xmitEvents s.hc s.mem } := by
  unfold State.xmit State.emitGap
  simp [State.frameTx_eq, State.setLevel, State.wait, State.loadTimer, xmitEvents, levelEvent]

end Sys2Proof.Machine
end

