-- ==== Sys2Proof/Laws/Memory.lean ====
section
/-! SUPPORT. The laws of the frame buffer: a read after a write, the canonical form, and memories that read alike are equal. -/
namespace Sys2Proof.Machine

/-! ### Reads after writes -/

theorem lookup_filter_self (a : Nat) (cs : List Host.Cell) :
    lookup a (cs.filter (fun c => c.1 != a)) = Config.resetByte := by
  induction cs with
  | nil => rfl
  | cons c cs ih =>
    by_cases h : c.1 = a
    · simpa [List.filter_cons, h] using ih
    · simpa [List.filter_cons, h, lookup] using ih

theorem lookup_filter_ne {a b : Nat} (h : b ≠ a) (cs : List Host.Cell) :
    lookup b (cs.filter (fun c => c.1 != a)) = lookup b cs := by
  induction cs with
  | nil => rfl
  | cons c cs ih =>
    by_cases hc : c.1 = a
    · have hb : ¬ c.1 = b := fun e => h (by omega)
      simpa [List.filter_cons, hc, lookup, hb, Ne.symm h] using ih
    · by_cases hb : c.1 = b
      · simp [lookup, hb, h]
      · simpa [List.filter_cons, hc, lookup, hb] using ih

theorem lookup_insertCell_self (a : Nat) (v : Byte) (cs : List Host.Cell) (h : ∀ c ∈ cs, c.1 ≠ a) :
    lookup a (insertCell a v cs) = v := by
  induction cs with
  | nil => simp [insertCell, lookup]
  | cons c cs ih =>
    have hc : c.1 ≠ a := h c (by simp)
    unfold insertCell
    split
    · simp [lookup]
    · simpa [lookup, hc] using ih fun c' hc' => h c' (by simp [hc'])

theorem lookup_insertCell_ne {a b : Nat} (h : b ≠ a) (v : Byte) (cs : List Host.Cell) :
    lookup b (insertCell a v cs) = lookup b cs := by
  induction cs with
  | nil => simp [insertCell, lookup, Ne.symm h]
  | cons c cs ih =>
    unfold insertCell
    split
    · simp [lookup, Ne.symm h]
    · by_cases hb : c.1 = b <;> simp [lookup, hb, ih]

theorem lookup_storeCell (a b : Nat) (v : Byte) (cs : List Host.Cell) :
    lookup b (storeCell a v cs) = if b = a then v else lookup b cs := by
  unfold storeCell
  by_cases h : b = a
  · subst h
    split
    · rename_i hv
      simp [hv, lookup_filter_self]
    · rw [lookup_insertCell_self _ _ _ (by simp)]
      simp
  · split <;> simp [h, lookup_insertCell_ne, lookup_filter_ne]

/-- Read after write: the address written reads as the value written, every other address as before. -/
@[simp] theorem Memory.read_write (m : Memory) (a : FrameAddr) (v : Byte) (b : Nat) :
    (m.write a v).read b = if b = a.val then v else m.read b :=
  lookup_storeCell a.val b v m.cells

@[simp] theorem Memory.read_orByte (m : Memory) (a : FrameAddr) (v : Byte) (b : Nat) :
    (m.orByte a v).read b = if b = a.val then m.read a.val ||| v else m.read b := by
  simp [Memory.orByte]

@[simp] theorem Memory.read_replaceHi (m : Memory) (a : FrameAddr) (n : Nibble) (b : Nat) :
    (m.replaceHi a n).read b = if b = a.val then pack n (lo (m.read a.val)) else m.read b := by
  simp [Memory.replaceHi]

@[simp] theorem Memory.read_empty (b : Nat) : (Memory.mk []).read b = 0x00#8 := rfl

/-! ### The canonical form -/

theorem mem_insertCell {a : Nat} {v : Byte} {cs : List Host.Cell} {c : Host.Cell} (h : c ∈ insertCell a v cs) :
    c = (a, v) ∨ c ∈ cs := by
  induction cs with
  | nil => simpa [insertCell] using h
  | cons d cs ih =>
    unfold insertCell at h
    split at h
    · simpa using h
    · rcases List.mem_cons.1 h with rfl | h'
      · simp
      · rcases ih h' with h'' | h'' <;> simp [h'']

theorem insertCell_sorted (a : Nat) (v : Byte) {cs : List Host.Cell} (hs : cs.Pairwise (fun x y => x.1 < y.1))
    (hne : ∀ c ∈ cs, c.1 ≠ a) : (insertCell a v cs).Pairwise (fun x y => x.1 < y.1) := by
  induction cs with
  | nil => simp [insertCell]
  | cons c cs ih =>
    rw [List.pairwise_cons] at hs
    have hc : c.1 ≠ a := hne c (by simp)
    unfold insertCell
    split
    · rename_i hlt
      refine List.pairwise_cons.2 ⟨fun d hd => ?_, List.pairwise_cons.2 hs⟩
      rcases List.mem_cons.1 hd with rfl | hd'
      · exact hlt
      · exact lt_trans hlt (hs.1 d hd')
    · refine List.pairwise_cons.2 ⟨fun d hd => ?_, ih hs.2 fun d hd => hne d (by simp [hd])⟩
      rcases mem_insertCell hd with rfl | hd'
      · exact show c.1 < a by omega
      · exact hs.1 d hd'

/-- A write keeps the canonical form. -/
theorem Memory.wf_write {m : Memory} (h : m.wf) (a : FrameAddr) (v : Byte) : (m.write a v).wf := by
  obtain ⟨hs, hc⟩ := h
  have hf : (m.cells.filter (fun c => c.1 != a.val)).Pairwise (fun x y => x.1 < y.1) := hs.filter _
  have hm : ∀ c ∈ m.cells.filter (fun c => c.1 != a.val), c.1 < Config.frameBytes ∧ c.2 ≠ Config.resetByte := fun c hc' =>
    hc c (List.mem_filter.1 hc').1
  unfold Memory.write storeCell
  split
  · exact ⟨hf, hm⟩
  · rename_i hv
    refine ⟨insertCell_sorted _ _ hf fun c hc' => by simpa using (List.mem_filter.1 hc').2, fun c hc' => ?_⟩
    rcases mem_insertCell hc' with rfl | hc''
    · exact ⟨a.isLt, hv⟩
    · exact hm c hc''

theorem Memory.wf_orByte {m : Memory} (h : m.wf) (a : FrameAddr) (v : Byte) : (m.orByte a v).wf := Memory.wf_write h a _

theorem Memory.wf_replaceHi {m : Memory} (h : m.wf) (a : FrameAddr) (n : Nibble) : (m.replaceHi a n).wf :=
  Memory.wf_write h a _

theorem Memory.wf_empty : (Memory.mk []).wf := by decide

/-! ### Equal reads, equal memories -/

theorem lookup_of_lt {a : Nat} {cs : List Host.Cell} (h : ∀ c ∈ cs, a < c.1) : lookup a cs = Config.resetByte := by
  induction cs with
  | nil => rfl
  | cons c cs ih =>
    have hc : ¬ c.1 = a := by have := h c (by simp); omega
    simpa [lookup, hc] using ih fun d hd => h d (by simp [hd])

theorem cells_ext {cs ds : List Host.Cell} (hcs : cs.Pairwise (fun x y => x.1 < y.1)) (hds : ds.Pairwise (fun x y => x.1 < y.1))
    (hc : ∀ c ∈ cs, c.2 ≠ Config.resetByte) (hd : ∀ c ∈ ds, c.2 ≠ Config.resetByte)
    (h : ∀ a, lookup a cs = lookup a ds) : cs = ds := by
  induction cs generalizing ds with
  | nil =>
    cases ds with
    | nil => rfl
    | cons d ds =>
      have := h d.1
      simp only [lookup, if_true] at this
      exact absurd this.symm (hd d (by simp))
  | cons c cs ih =>
    rw [List.pairwise_cons] at hcs
    cases ds with
    | nil =>
      have := h c.1
      simp only [lookup, if_true] at this
      exact absurd this (hc c (by simp))
    | cons d ds =>
      rw [List.pairwise_cons] at hds
      have hcd : c.1 = d.1 := by
        rcases Nat.lt_trichotomy c.1 d.1 with hlt | heq | hgt
        · have hz : lookup c.1 (d :: ds) = Config.resetByte := lookup_of_lt fun e he => by
            rcases List.mem_cons.1 he with rfl | he'
            · exact hlt
            · exact lt_trans hlt (hds.1 e he')
          have := h c.1
          rw [hz] at this
          simp only [lookup, if_true] at this
          exact absurd this (hc c (by simp))
        · exact heq
        · have hz : lookup d.1 (c :: cs) = Config.resetByte := lookup_of_lt fun e he => by
            rcases List.mem_cons.1 he with rfl | he'
            · exact hgt
            · exact lt_trans hgt (hcs.1 e he')
          have := h d.1
          rw [hz] at this
          simp only [lookup, if_true] at this
          exact absurd this.symm (hd d (by simp))
      have hv : c.2 = d.2 := by
        have := h c.1
        simpa [lookup, hcd] using this
      have hhead : c = d := Prod.ext hcd hv
      subst hhead
      refine congrArg (c :: ·) (ih hcs.2 hds.2 (fun e he => hc e (by simp [he])) (fun e he => hd e (by simp [he])) fun a => ?_)
      by_cases ha : c.1 = a
      · subst ha
        rw [lookup_of_lt hcs.1, lookup_of_lt hds.1]
      · have := h a
        simpa [lookup, ha] using this

/-- Two memories in canonical form that read alike at every address are equal. -/
theorem Memory.ext_read {m n : Memory} (hm : m.wf) (hn : n.wf) (h : ∀ a, m.read a = n.read a) : m = n := by
  cases m; cases n
  exact congrArg Memory.mk (cells_ext hm.1 hn.1 (fun c hc => (hm.2 c hc).2) (fun c hc => (hn.2 c hc).2) h)

end Sys2Proof.Machine
end

