-- ==== Sys2Proof/Laws/Frame.lean ====
section
/-! SUPPORT. What the setters, the checksum and the update step leave at each address, and that they keep the canonical form. -/
namespace Sys2Proof.Machine

/-! ### Nibbles -/

@[simp] theorem lo_pack (h l : Nibble) : lo (pack h l) = l := by
  unfold lo pack; exact BitVec.extractLsb'_append_eq_right

@[simp] theorem hi_pack (h l : Nibble) : hi (pack h l) = h := by
  unfold hi pack; exact BitVec.extractLsb'_append_eq_left

theorem lo_toNat (b : Byte) : (lo b).toNat = b.toNat % 16 := by
  simp [lo]

theorem hi_toNat (b : Byte) : (hi b).toNat = b.toNat / 16 := by
  have := b.isLt
  simp only [hi, BitVec.extractLsb'_toNat, Nat.shiftRight_eq_div_pow]
  omega

theorem pack_hi_lo (b : Byte) : pack (hi b) (lo b) = b := by
  apply BitVec.eq_of_toNat_eq
  have := b.isLt
  simp only [pack, BitVec.toNat_append, hi_toNat, lo_toNat]
  rw [← Nat.shiftLeft_add_eq_or_of_lt (by omega), Nat.shiftLeft_eq]
  omega

theorem lo_or (a b : Byte) : lo (a ||| b) = lo a ||| lo b := by
  unfold lo; ext i hi; simp

theorem hi_or (a b : Byte) : hi (a ||| b) = hi a ||| hi b := by
  unfold hi; ext i hi; simp

/-! ### The setters -/

@[simp] theorem read_setType (b : Byte × Byte) (m : Memory) (a : Nat) :
    (setType b m).read a = if a = 1 then b.2 else if a = 0 then b.1 else m.read a := by
  simp [setType]

@[simp] theorem read_setChannel (c : Byte) (m : Memory) (a : Nat) :
    (setChannel c m).read a = if a = 2 then c else m.read a := by
  simp [setChannel]

@[simp] theorem read_setIdent (d : Byte) (m : Memory) (a : Nat) :
    (setIdent d m).read a = if a = 3 then d else m.read a := by
  simp [setIdent]

@[simp] theorem read_setBattery (level : Bool) (m : Memory) (a : Nat) :
    (setBattery level m).read a = if a = 4 then (if level then Config.battOk else Config.battLow) else m.read a := by
  simp [setBattery]

@[simp] theorem read_setTemperature (r : Config.Rounding) (fD : Byte) (fT : Nibble) (t : BitVec 32) (m : Memory) (a : Nat) :
    (setTemperature r fD fT t m).read a =
      if a = 4 then m.read 4 ||| tenthsByte r fT t else if a = 5 then digitsByte r fD t
      else if a = 6 then signByte t else m.read a := by
  simp [setTemperature]

@[simp] theorem read_setHumidity (h : Byte) (m : Memory) (a : Nat) :
    (setHumidity h m).read a =
      if a = 6 then pack (BitVec.ofNat 4 (h.toNat - h.toNat / 10 * 10)) (lo (m.read 6))
      else if a = 7 then BitVec.ofNat 8 (h.toNat / 10) else m.read a := by
  simp [setHumidity]

theorem setType_wf (b : Byte × Byte) {m : Memory} (h : m.wf) : (setType b m).wf :=
  Memory.wf_write (Memory.wf_write h _ _) _ _

theorem setChannel_wf (c : Byte) {m : Memory} (h : m.wf) : (setChannel c m).wf := Memory.wf_write h _ _

theorem setIdent_wf (d : Byte) {m : Memory} (h : m.wf) : (setIdent d m).wf := Memory.wf_write h _ _

theorem setBattery_wf (level : Bool) {m : Memory} (h : m.wf) : (setBattery level m).wf := Memory.wf_write h _ _

theorem setTemperature_wf (r : Config.Rounding) (fD : Byte) (fT : Nibble) (t : BitVec 32) {m : Memory} (h : m.wf) :
    (setTemperature r fD fT t m).wf :=
  Memory.wf_orByte (Memory.wf_write (Memory.wf_write h _ _) _ _) _ _

theorem setHumidity_wf (x : Byte) {m : Memory} (h : m.wf) : (setHumidity x m).wf :=
  Memory.wf_replaceHi (Memory.wf_write h _ _) _ _

/-! ### The checksum -/

@[simp] theorem read_checksumT (m : Memory) (a : Nat) :
    (checksumT m).read a =
      if a = 7 then (hi (checksumValueT m)).setWidth 8
      else if a = 6 then pack (lo (checksumValueT m)) (lo (m.read 6)) else m.read a := by
  simp [checksumT]

@[simp] theorem read_checksumTH (m : Memory) (a : Nat) :
    (checksumTH m).read a = if a = 8 then checksumValueTH m else m.read a := by
  simp [checksumTH]

theorem checksum_wf (hc : Bool) {m : Memory} (h : m.wf) : (checksum hc m).wf := by
  unfold checksum
  split
  · exact Memory.wf_write h _ _
  · exact Memory.wf_write (Memory.wf_replaceHi h _ _) _ _

/-- The nibble sum reads the bytes below its count only. -/
theorem nibbleSum_congr {m n : Memory} {k : Nat} (h : ∀ a < k, m.read a = n.read a) : nibbleSum m k = nibbleSum n k := by
  induction k with
  | zero => rfl
  | succ k ih =>
    simp only [nibbleSum]
    rw [ih fun a ha => h a (by omega), h k (by omega)]

/-! ### The update step -/

/-- The frame just before the checksum. -/
theorem updateFrame_wf (r : Config.Rounding) (fD : Byte) (fT : Nibble) (hc : Bool) (hum : Byte) (temp : BitVec 32) (bok : Bool)
    {m : Memory} (h : m.wf) : (updateFrame r fD fT hc hum temp bok m).wf := by
  unfold updateFrame humidityIfCapable
  apply checksum_wf
  have := setTemperature_wf r fD fT temp (setBattery_wf bok h)
  split
  · exact setHumidity_wf _ this
  · exact this

/-- The bytes of the reading after UPDATE in variant T (spec/43_tx_sequencer.md R160). -/
theorem read_updateFrame_T (r : Config.Rounding) (fD : Byte) (fT : Nibble) (hum : Byte) (temp : BitVec 32) (bok : Bool)
    (m : Memory) :
    (updateFrame r fD fT false hum temp bok m).read 4 =
        (if bok then Config.battOk else Config.battLow) ||| tenthsByte r fT temp ∧
      (updateFrame r fD fT false hum temp bok m).read 5 = digitsByte r fD temp ∧
      lo ((updateFrame r fD fT false hum temp bok m).read 6) = lo (signByte temp) := by
  simp [updateFrame, checksum, humidityIfCapable]

/-- The bytes of the reading after UPDATE in variant TH (spec/43_tx_sequencer.md R160). -/
theorem read_updateFrame_TH (r : Config.Rounding) (fD : Byte) (fT : Nibble) (hum : Byte) (temp : BitVec 32) (bok : Bool)
    (m : Memory) :
    (updateFrame r fD fT true hum temp bok m).read 4 =
        (if bok then Config.battOk else Config.battLow) ||| tenthsByte r fT temp ∧
      (updateFrame r fD fT true hum temp bok m).read 5 = digitsByte r fD temp ∧
      (updateFrame r fD fT true hum temp bok m).read 6 =
        pack (BitVec.ofNat 4 (hum.toNat - hum.toNat / 10 * 10)) (lo (signByte temp)) ∧
      (updateFrame r fD fT true hum temp bok m).read 7 = BitVec.ofNat 8 (hum.toNat / 10) := by
  simp [updateFrame, checksum, humidityIfCapable]

/-- The update step writes none of `F[0..3]`, nothing beyond `F[8]`, and `F[8]` in variant TH only
(spec/43_tx_sequencer.md R160). -/
theorem read_updateFrame_frame (r : Config.Rounding) (fD : Byte) (fT : Nibble) (hc : Bool) (hum : Byte) (temp : BitVec 32)
    (bok : Bool) (m : Memory) (a : Nat) (ha : a < 4 ∨ 8 < a ∨ (a = 8 ∧ hc = false)) :
    (updateFrame r fD fT hc hum temp bok m).read a = m.read a := by
  cases hc
  · have h1 : a ≠ 4 ∧ a ≠ 5 ∧ a ≠ 6 ∧ a ≠ 7 := by rcases ha with h | h | ⟨h, -⟩ <;> omega
    simp [updateFrame, checksum, humidityIfCapable, h1]
  · have h1 : a ≠ 4 ∧ a ≠ 5 ∧ a ≠ 6 ∧ a ≠ 7 ∧ a ≠ 8 := by
      rcases ha with h | h | ⟨-, h⟩
      · omega
      · omega
      · cases h
    simp [updateFrame, checksum, humidityIfCapable, h1]

end Sys2Proof.Machine
end

