-- ==== Sys2Proof/Laws/Numbers.lean ====
section
/-! SUPPORT. The values of the exact fractions, what a rounding and a temperature pattern answer, and how far `NUM.rnd` moves a value:
by at most half a unit in the last place, so by at most `2^-24` of the value plus half the smallest subnormal (spec/00_scope.md R12). -/
namespace Sys2Proof.Machine

theorem Frac.val_subInt {x : Frac} (h : 0 < x.den) (n : Int) : (x.subInt n).val = x.val - n := by
  have : (x.den : ℚ) ≠ 0 := by positivity
  simp only [Frac.val, Frac.subInt]
  push_cast
  field_simp

theorem Frac.val_mulInt (x : Frac) (n : Int) : (x.mulInt n).val = x.val * n := by
  simp only [Frac.val, Frac.mulInt]
  push_cast
  ring

theorem Frac.val_neg (x : Frac) : x.neg.val = -x.val := by
  simp only [Frac.val, Frac.neg]
  push_cast
  ring

/-- `floor` is the greatest integer not above (R12). -/
theorem Frac.floor_eq (x : Frac) : x.floor = ⌊x.val⌋ := by
  unfold Frac.floor Frac.val
  rw [Rat.floor_intCast_div_natCast]

/-- `rha(x) = floor(x + 1/2)` (R12). -/
theorem Frac.rha_eq {x : Frac} (h : 0 < x.den) : x.rha = ⌊x.val + 1 / 2⌋ := by
  have hd : (x.den : ℚ) ≠ 0 := by positivity
  have : x.val + 1 / 2 = ((2 * x.num + (x.den : Int) : Int) : ℚ) / ((2 * x.den : Nat) : ℚ) := by
    unfold Frac.val
    push_cast
    field_simp
  rw [this, Rat.floor_intCast_div_natCast]
  unfold Frac.rha
  push_cast
  rfl

/-- A value closer than 1/2 to an integer rounds to it. -/
theorem Frac.rha_of_close {x : Frac} (h : 0 < x.den) (k : Int) (hk : |x.val - k| < 1 / 2) : x.rha = k := by
  rw [Frac.rha_eq h, Int.floor_eq_iff]
  rw [abs_lt] at hk
  constructor <;> linarith [hk.1, hk.2]

theorem Frac.rha_le {x : Frac} (h : 0 < x.den) (k : Int) (hk : x.val < k + 1 / 2) : x.rha ≤ k := by
  rw [Frac.rha_eq h]
  have : ⌊x.val + 1 / 2⌋ < k + 1 := Int.floor_lt.2 (by push_cast; linarith)
  omega

/-! ### The rounding to binary32 -/

theorem zpow_toNat (k : Int) : ((2 : ℚ) ^ k) = (2 : ℚ) ^ k.toNat / (2 : ℚ) ^ (-k).toNat := by
  rcases le_total 0 k with h | h
  · obtain ⟨n, rfl⟩ := Int.eq_ofNat_of_zero_le h
    simp
  · obtain ⟨n, hn⟩ := Int.exists_eq_neg_ofNat h
    subst hn
    simp

/-- `2^e <= n/d < 2^(e+1)` for the exponent `e` (R12). -/
theorem binExponent_spec {n d : Nat} (hn : 0 < n) (hd : 0 < d) :
    (2 : ℚ) ^ binExponent n d ≤ (n : ℚ) / d ∧ (n : ℚ) / d < (2 : ℚ) ^ (binExponent n d + 1) := by
  have hdq : (0 : ℚ) < d := by exact_mod_cast hd
  have h2 : (2 : ℚ) ≠ 0 := by norm_num
  have hn1 : ((2 : ℚ) ^ (Nat.log2 n : Int)) ≤ n := by
    rw [zpow_natCast]; exact_mod_cast Nat.log2_self_le (by omega)
  have hn2 : (n : ℚ) < (2 : ℚ) ^ ((Nat.log2 n : Int) + 1) := by
    have h : n < 2 ^ (Nat.log2 n + 1) := Nat.lt_log2_self
    have : (n : ℚ) < (2 : ℚ) ^ (Nat.log2 n + 1) := by exact_mod_cast h
    exact_mod_cast this
  have hd1 : ((2 : ℚ) ^ (Nat.log2 d : Int)) ≤ d := by
    rw [zpow_natCast]; exact_mod_cast Nat.log2_self_le (by omega)
  have hd2 : (d : ℚ) < (2 : ℚ) ^ ((Nat.log2 d : Int) + 1) := by
    have h : d < 2 ^ (Nat.log2 d + 1) := Nat.lt_log2_self
    have : (d : ℚ) < (2 : ℚ) ^ (Nat.log2 d + 1) := by exact_mod_cast h
    exact_mod_cast this
  have key : ∀ e : Int, (n * 2 ^ (-e).toNat < d * 2 ^ e.toNat) ↔ (n : ℚ) / d < (2 : ℚ) ^ e := by
    intro e
    rw [zpow_toNat e, div_lt_div_iff₀ hdq (by positivity)]
    constructor
    · intro h
      have : ((n * 2 ^ (-e).toNat : Nat) : ℚ) < ((d * 2 ^ e.toNat : Nat) : ℚ) := by exact_mod_cast h
      push_cast at this
      linarith
    · intro h
      have : ((n * 2 ^ (-e).toNat : Nat) : ℚ) < ((d * 2 ^ e.toNat : Nat) : ℚ) := by
        push_cast
        linarith
      exact_mod_cast this
  have hup : (n : ℚ) / d < (2 : ℚ) ^ ((Nat.log2 n : Int) - (Nat.log2 d : Int) + 1) := by
    rw [div_lt_iff₀ hdq]
    calc (n : ℚ) < (2 : ℚ) ^ ((Nat.log2 n : Int) + 1) := hn2
      _ = (2 : ℚ) ^ ((Nat.log2 n : Int) - (Nat.log2 d : Int) + 1) * (2 : ℚ) ^ (Nat.log2 d : Int) := by
        rw [← zpow_add₀ h2]; congr 1; ring
      _ ≤ _ := by gcongr
  have hlow : (2 : ℚ) ^ ((Nat.log2 n : Int) - (Nat.log2 d : Int) - 1) ≤ (n : ℚ) / d := by
    rw [le_div_iff₀ hdq]
    calc (2 : ℚ) ^ ((Nat.log2 n : Int) - (Nat.log2 d : Int) - 1) * (d : ℚ)
        ≤ (2 : ℚ) ^ ((Nat.log2 n : Int) - (Nat.log2 d : Int) - 1) * (2 : ℚ) ^ ((Nat.log2 d : Int) + 1) := by gcongr
      _ = (2 : ℚ) ^ (Nat.log2 n : Int) := by rw [← zpow_add₀ h2]; congr 1; ring
      _ ≤ n := hn1
  unfold binExponent
  simp only
  split
  · rename_i h
    refine ⟨hlow, ?_⟩
    rw [show (Nat.log2 n : Int) - (Nat.log2 d : Int) - 1 + 1 = (Nat.log2 n : Int) - (Nat.log2 d : Int) by ring]
    exact (key _).1 h
  · rename_i h
    exact ⟨not_lt.1 fun h' => h ((key _).2 h'), hup⟩

/-- No other exponent has its power of two around `n/d` (R12). -/
theorem binExponent_unique {n d : Nat} (hn : 0 < n) (hd : 0 < d) {e : Int} (h1 : (2 : ℚ) ^ e ≤ (n : ℚ) / d)
    (h2 : (n : ℚ) / d < (2 : ℚ) ^ (e + 1)) : binExponent n d = e := by
  obtain ⟨b1, b2⟩ := binExponent_spec hn hd
  have l1 := (zpow_lt_zpow_iff_right₀ (by norm_num : (1 : ℚ) < 2)).1 (lt_of_le_of_lt b1 h2)
  have l2 := (zpow_lt_zpow_iff_right₀ (by norm_num : (1 : ℚ) < 2)).1 (lt_of_le_of_lt h1 b2)
  omega

/-- The nearest integer of a quotient, a tie to the even one, said of its floor (R12). -/
theorem roundHalfEven_eq {n d : Nat} (hd : 0 < d) :
    (roundHalfEven n d : ℚ) =
      if 1 / 2 < (n : ℚ) / d - ⌊(n : ℚ) / d⌋ ∨ ((n : ℚ) / d - ⌊(n : ℚ) / d⌋ = 1 / 2 ∧ ⌊(n : ℚ) / d⌋ % 2 = 1)
      then (⌊(n : ℚ) / d⌋ : ℚ) + 1 else (⌊(n : ℚ) / d⌋ : ℚ) := by
  have hdq : (0 : ℚ) < d := by exact_mod_cast hd
  have hf : ⌊(n : ℚ) / d⌋ = ((n / d : Nat) : Int) := by
    have := Rat.floor_intCast_div_natCast (n : Int) d
    rw [Int.cast_natCast] at this
    rw [this]
    norm_cast
  have hr : (n : ℚ) / d - ((n / d : Nat) : ℚ) = ((n % d : Nat) : ℚ) / d := by
    have : (n : ℚ) = d * ((n / d : Nat) : ℚ) + ((n % d : Nat) : ℚ) := by exact_mod_cast (Nat.div_add_mod n d).symm
    field_simp
    linarith
  rw [hf, Int.cast_natCast, hr]
  have c1 : (1 / 2 < ((n % d : Nat) : ℚ) / d) ↔ d < 2 * (n % d) := by
    rw [lt_div_iff₀ hdq, ← @Nat.cast_lt ℚ]
    push_cast
    constructor <;> intro h <;> linarith
  have c2 : (((n % d : Nat) : ℚ) / d = 1 / 2) ↔ 2 * (n % d) = d := by
    rw [div_eq_iff hdq.ne', ← @Nat.cast_inj ℚ]
    push_cast
    constructor <;> intro h <;> linarith
  have c3 : ((n / d : Nat) : Int) % 2 = 1 ↔ n / d % 2 = 1 := by omega
  unfold roundHalfEven
  simp only [c1, c2, c3]
  split_ifs <;> push_cast <;> rfl

/-- The nearest integer is at most half away. -/
theorem roundHalfEven_error {n d : Nat} (hd : 0 < d) : |(roundHalfEven n d : ℚ) - (n : ℚ) / d| ≤ 1 / 2 := by
  have hdq : (0 : ℚ) < d := by exact_mod_cast hd
  have hdm : d * (n / d) + n % d = n := Nat.div_add_mod n d
  have hlt : n % d < d := Nat.mod_lt _ hd
  have h1 : 2 * n ≤ 2 * (d * roundHalfEven n d) + d := by
    unfold roundHalfEven
    split <;> rename_i h
    · rw [Nat.mul_add]; omega
    · rw [not_or] at h; omega
  have h2 : 2 * (d * roundHalfEven n d) ≤ 2 * n + d := by
    unfold roundHalfEven
    split <;> rename_i h
    · rw [Nat.mul_add]; omega
    · omega
  have h1q : 2 * (n : ℚ) ≤ 2 * (d * roundHalfEven n d) + d := by exact_mod_cast h1
  have h2q : 2 * ((d : ℚ) * roundHalfEven n d) ≤ 2 * n + d := by exact_mod_cast h2
  rw [abs_le]
  constructor
  · rw [neg_le_sub_iff_le_add, div_le_iff₀ hdq]; linarith
  · rw [sub_le_iff_le_add, ← sub_le_iff_le_add', le_div_iff₀ hdq]; linarith

theorem roundB32Nat_den_pos (n d : Nat) : 0 < (roundB32Nat n d).den := by
  unfold roundB32Nat
  split
  · exact Nat.one_pos
  · exact Nat.two_pow_pos _

theorem roundB32_den_pos (x : Frac) : 0 < (roundB32 x).den := by
  unfold roundB32
  split <;> exact roundB32Nat_den_pos _ _

theorem round_den_pos (r : Config.Rounding) {x : Frac} (h : 0 < x.den) : 0 < (round r x).den := by
  cases r
  · exact roundB32_den_pos x
  · exact h

/-- `rnd_b32` of `n/d` is the rounded number of units, times the unit (R12). -/
theorem roundB32Nat_val {n : Nat} (d : Nat) (hn : n ≠ 0) :
    (roundB32Nat n d).val =
      (roundHalfEven (n * 2 ^ (-(unitExponent n d)).toNat) (d * 2 ^ (unitExponent n d).toNat) : ℚ) *
        (2 : ℚ) ^ unitExponent n d := by
  unfold roundB32Nat
  rw [if_neg hn, zpow_toNat]
  simp only [Frac.val]
  push_cast
  ring

/-- `rnd_b32` of `n/d` is off by at most `2^-24` of the value plus half the smallest subnormal. -/
theorem roundB32Nat_error {n d : Nat} (hd : 0 < d) :
    |(roundB32Nat n d).val - (n : ℚ) / d| ≤ (n : ℚ) / d * (1 / 2 ^ 24) + 1 / 2 ^ 150 := by
  have hdq : (0 : ℚ) < d := by exact_mod_cast hd
  rcases Nat.eq_zero_or_pos n with rfl | hn
  · simp [roundB32Nat, Frac.val]
  obtain ⟨hlo, -⟩ := binExponent_spec hn hd
  have hval := roundB32Nat_val d hn.ne'
  have hx : (n : ℚ) / d =
      ((n * 2 ^ (-(unitExponent n d)).toNat : Nat) : ℚ) / ((d * 2 ^ (unitExponent n d).toNat : Nat) : ℚ) *
        (2 : ℚ) ^ unitExponent n d := by
    rw [zpow_toNat]
    push_cast
    field_simp
  have herr := roundHalfEven_error (n := n * 2 ^ (-(unitExponent n d)).toNat) (d := d * 2 ^ (unitExponent n d).toNat)
    (by positivity)
  have hu : (0 : ℚ) < (2 : ℚ) ^ unitExponent n d := by positivity
  have hmain : |(roundB32Nat n d).val - (n : ℚ) / d| ≤ 1 / 2 * (2 : ℚ) ^ unitExponent n d := by
    rw [hval]
    conv_lhs => rw [hx]
    rw [← sub_mul, abs_mul, abs_of_pos hu]
    exact mul_le_mul_of_nonneg_right herr hu.le
  refine hmain.trans ?_
  have hnn : (0 : ℚ) ≤ (n : ℚ) / d := by positivity
  unfold unitExponent
  rcases le_total (binExponent n d) (-126) with h | h
  · rw [max_eq_right h]
    have : (1 / 2 : ℚ) * (2 : ℚ) ^ ((-126 : Int) - 23) = 1 / 2 ^ 150 := by norm_num [zpow_neg]
    rw [this]
    have : 0 ≤ (n : ℚ) / d * (1 / 2 ^ 24) := by positivity
    linarith
  · rw [max_eq_left h]
    have : (1 / 2 : ℚ) * (2 : ℚ) ^ (binExponent n d - 23) = (2 : ℚ) ^ binExponent n d * (1 / 2 ^ 24) := by
      rw [zpow_sub₀ (by norm_num)]; norm_num; ring
    rw [this]
    have h3 : (2 : ℚ) ^ binExponent n d * (1 / 2 ^ 24) ≤ (n : ℚ) / d * (1 / 2 ^ 24) := by gcongr
    have : (0 : ℚ) ≤ 1 / 2 ^ 150 := by positivity
    linarith

/-- Either instance of `NUM.rnd` moves a value by at most `2^-24` of it plus half the smallest subnormal. -/
theorem round_error (r : Config.Rounding) {x : Frac} (h : 0 < x.den) :
    |(round r x).val - x.val| ≤ |x.val| * (1 / 2 ^ 24) + 1 / 2 ^ 150 := by
  have hdq : (0 : ℚ) < x.den := by exact_mod_cast h
  cases r
  · have hcast : ((x.num.natAbs : Nat) : ℚ) = |(x.num : ℚ)| := by
      rw [← Int.cast_abs, Int.abs_eq_natAbs]; rfl
    have herr := roundB32Nat_error (n := x.num.natAbs) h
    have habs : ((x.num.natAbs : Nat) : ℚ) / x.den = |x.val| := by
      rw [hcast, Frac.val, abs_div, abs_of_pos hdq]
    rw [habs] at herr
    show |(roundB32 x).val - x.val| ≤ _
    unfold roundB32
    split <;> rename_i hneg
    · have hv : x.val < 0 := div_neg_of_neg_of_pos (by exact_mod_cast hneg) hdq
      rw [abs_of_neg hv] at herr ⊢
      rw [Frac.val_neg, show -(roundB32Nat x.num.natAbs x.den).val - x.val =
        -((roundB32Nat x.num.natAbs x.den).val - -x.val) by ring, abs_neg]
      exact herr
    · have hv : 0 ≤ x.val := div_nonneg (by exact_mod_cast not_lt.1 hneg) hdq.le
      rw [abs_of_nonneg hv] at herr ⊢
      exact herr
  · show |x.val - x.val| ≤ _
    rw [sub_self, abs_zero]
    positivity

/-- What a temperature pattern stands for, said in its fields (R12). -/
theorem f32val_eq (t : BitVec 32) :
    f32val t =
      if Safety.expField t = 255 then (if Safety.fracField t = 0 then .inf (t.getLsbD 31) else .nan)
      else if Safety.expField t = 0 then .finite ⟨signed (t.getLsbD 31) (Safety.fracField t), 2 ^ 149⟩
      else .finite ⟨signed (t.getLsbD 31) ((2 ^ 23 + Safety.fracField t) * 2 ^ (Safety.expField t - 150)),
        2 ^ (150 - Safety.expField t)⟩ := by
  have he : (t.extractLsb' 23 8).toNat = Safety.expField t := by
    rw [BitVec.extractLsb'_toNat, Nat.shiftRight_eq_div_pow]
    rfl
  have hf : (t.extractLsb' 0 23).toNat = Safety.fracField t := by
    rw [BitVec.extractLsb'_toNat]
    rfl
  unfold f32val
  simp only [he, hf]

/-- The magnitude of a temperature operand is a fraction with a positive denominator and below the bound
(spec/42_message_builder.md R140). -/
theorem magnitude_spec {t : BitVec 32} {m : Frac} (h : (f32val t).magnitude = some m) :
    0 < m.den ∧ 0 ≤ m.val ∧ m.val < 2 ^ 20 := by
  have hfin : ∀ v : Frac, 0 < v.den → (F32.finite v).magnitude = some m → 0 < m.den ∧ 0 ≤ m.val ∧ m.val < 2 ^ 20 := by
    intro v hv hm
    have hvq : (0 : ℚ) < v.den := by exact_mod_cast hv
    simp only [F32.magnitude] at hm
    split at hm
    · rename_i hlt
      cases hm
      refine ⟨hv, by unfold Frac.val; positivity, ?_⟩
      have : (v.num.natAbs : ℚ) < 2 ^ 20 * v.den := by
        have h' : v.num.natAbs < 2 ^ 20 * v.den := by simpa [Config.tempBound] using hlt
        exact_mod_cast h'
      show ((v.num.natAbs : Int) : ℚ) / v.den < _
      rw [div_lt_iff₀ hvq]
      exact_mod_cast this
    · cases hm
  unfold f32val at h
  simp only at h
  split at h
  · split at h <;> simp [F32.magnitude] at h
  · split at h <;> exact hfin _ (Nat.two_pow_pos _) h

end Sys2Proof.Machine
end

