-- ==== Sys2Proof/Laws/PerInstr.lean ====
section
/-! SUPPORT. What is said of every instruction, one lemma for each: the word that encodes it matches its row of
spec/opcode_table.json, and nothing outside the row's operand fields is set (spec/30_encoding.md R70, R85, R87). -/
namespace Sys2Proof.Laws.MatchesTable

open Sys2Proof

/-- A row of spec/opcode_table.json, with the operand's bits filled in: the mask, the match and the bits of the operand fields of
a command row (R87 (a)); or the characters of the encoding string of a symbol or line row, in time order, `true` for `1`
(R87 (b), (c)). -/
inductive Row where
  | command (mask mtch fields : CommandWord)
  | line (chars : List Bool)

/-- The row of each instruction, as spec/opcode_table.json gives it. -/
def row : Instr → Row
  | .nop => .command 0xF000000000000000#64 0x0000000000000000#64 0
  | .configure _ _ _ _ => .command 0xF000000000000000#64 0x1000000000000000#64 0x0FFFFFF100000000#64
  | .setPin _ => .command 0xF000000000000000#64 0x2000000000000000#64 0x0FF0000000000000#64
  | .setHc _ => .command 0xF000000000000000#64 0x3000000000000000#64 0x0000000100000000#64
  | .setIdch _ _ => .command 0xF000000000000000#64 0x4000000000000000#64 0x000FFFF000000000#64
  | .send _ _ _ => .command 0xF000000000000000#64 0x5000000000000000#64 0x0FF00001FFFFFFFF#64
  | .reserved67 _ => .command 0xE000000000000000#64 0x6000000000000000#64 0x1000000000000000#64
  | .reserved8F _ => .command 0x8000000000000000#64 0x8000000000000000#64 0x7000000000000000#64
  | .zero => .line [true, false, false, true]
  | .one => .line [false, true, true, false]
  | .nibbleLo v => .line [v.getLsbD 0, v.getLsbD 1, v.getLsbD 2, v.getLsbD 3]
  | .nibbleHi v => .line [v.getLsbD 4, v.getLsbD 5, v.getLsbD 6, v.getLsbD 7]
  | .byte v =>
    .line [v.getLsbD 0, v.getLsbD 1, v.getLsbD 2, v.getLsbD 3, v.getLsbD 4, v.getLsbD 5, v.getLsbD 6, v.getLsbD 7]
  | .preamble => .line (List.replicate 16 true)
  | .postambleT => .line (List.replicate 4 false)
  | .postambleTH => .line (List.replicate 8 false)

/-- A word is an instance of a row: the masked bits are the row's match and every bit outside the mask and the operand fields is
0 (R85); or each bit of the line word's pattern is the row's character at that place, and 0 beyond the string. -/
def instanceOf : FetchWord → Row → Prop
  | .command w, .command mask mtch fields => w &&& mask = mtch ∧ w &&& ~~~(mask ||| fields) = 0
  | .line w, .line chars => ∀ j < 16, (linePattern w).getLsbD j = chars.getD j false
  | _, _ => False

/-- The word of a well-formed instruction is an instance of its row. -/
def Statement (i : Instr) : Prop := i.wellFormed = true → instanceOf (encode i) (row i)

/-- A command word from its fields, bit by bit. -/
theorem commandWord_bit (op : BitVec 4) (a b c : Byte) (flag : Bool) (temp : BitVec 32) (j : Nat) :
    (commandWord op a b c flag temp).getLsbD j =
      if j < 32 then temp.getLsbD j else if j < 33 then flag else if j < 36 then false else if j < 44 then c.getLsbD (j - 36)
      else if j < 52 then b.getLsbD (j - 44) else if j < 60 then a.getLsbD (j - 52) else op.getLsbD (j - 60) := by
  simp only [commandWord, BitVec.getLsbD_append, BitVec.getLsbD_ofBool]
  grind

theorem nop : Statement .nop := fun _ => by
  exact ⟨by decide, by decide⟩

theorem configure (pin channel ident : Byte) (hc : Bool) : Statement (.configure pin channel ident hc) := fun _ => by
  constructor <;> apply BitVec.eq_of_getLsbD_eq <;> intro j hj <;>
    simp only [BitVec.getLsbD_and, commandWord_bit] <;> interval_cases j <;> simp

theorem setPin (pin : Byte) : Statement (.setPin pin) := fun _ => by
  constructor <;> apply BitVec.eq_of_getLsbD_eq <;> intro j hj <;>
    simp only [BitVec.getLsbD_and, commandWord_bit] <;> interval_cases j <;> simp

theorem setHc (hc : Bool) : Statement (.setHc hc) := fun _ => by
  cases hc <;> exact ⟨by decide, by decide⟩

theorem setIdch (ident channel : Byte) : Statement (.setIdch ident channel) := fun _ => by
  constructor <;> apply BitVec.eq_of_getLsbD_eq <;> intro j hj <;>
    simp only [BitVec.getLsbD_and, commandWord_bit] <;> interval_cases j <;> simp

theorem send (hum : Byte) (temp : BitVec 32) (bok : Bool) : Statement (.send hum temp bok) := fun _ => by
  constructor <;> apply BitVec.eq_of_getLsbD_eq <;> intro j hj <;>
    simp only [BitVec.getLsbD_and, commandWord_bit] <;> interval_cases j <;> simp

theorem reserved67 (op : BitVec 4) : Statement (.reserved67 op) := fun h => by
  have hop : op = 6#4 ∨ op = 7#4 := by simpa [Instr.wellFormed] using h
  rcases hop with rfl | rfl <;> exact ⟨by decide, by decide⟩

theorem reserved8F (op : BitVec 4) : Statement (.reserved8F op) := by
  unfold Statement instanceOf encode row
  revert op
  decide

theorem zero : Statement .zero := fun _ => by
  show ∀ j < 16, _
  decide

theorem one : Statement .one := fun _ => by
  show ∀ j < 16, _
  decide

theorem nibbleLo (v : Byte) : Statement (.nibbleLo v) := fun _ => by
  intro j hj
  simp only [linePattern_lineWord, BitVec.getLsbD_append]
  interval_cases j <;> simp

theorem nibbleHi (v : Byte) : Statement (.nibbleHi v) := fun _ => by
  intro j hj
  simp only [linePattern_lineWord, BitVec.getLsbD_append]
  interval_cases j <;> simp

theorem byte (v : Byte) : Statement (.byte v) := fun _ => by
  intro j hj
  simp only [linePattern_lineWord, BitVec.getLsbD_append]
  interval_cases j <;> simp

theorem preamble : Statement .preamble := fun _ => by
  show ∀ j < 16, _
  decide

theorem postambleT : Statement .postambleT := fun _ => by
  show ∀ j < 16, _
  decide

theorem postambleTH : Statement .postambleTH := fun _ => by
  show ∀ j < 16, _
  decide

end Sys2Proof.Laws.MatchesTable
end

