-- ==== Sys2Proof/Laws/Sequencer.lean ====
section
/-! SUPPORT. What a step of the sequencer can do, said once for each of its parts, and the ranges it keeps. -/
namespace Sys2Proof.Machine

/-! ### What the sequencer never writes (spec/10_state.md R38) -/

@[simp] theorem State.symbolStep_mem (b : Bool) (s : State) : (s.symbolStep b).mem = s.mem := by simp [State.symbolStep]

@[simp] theorem State.symbolStep_hc (b : Bool) (s : State) : (s.symbolStep b).hc = s.hc := by simp [State.symbolStep]

@[simp] theorem State.symbolStep_cfg (b : Bool) (s : State) : (s.symbolStep b).cfg = s.cfg := by simp [State.symbolStep]

@[simp] theorem State.symbolStep_pinsel (b : Bool) (s : State) : (s.symbolStep b).pinsel = s.pinsel := by simp [State.symbolStep]

@[simp] theorem State.symbolStep_draws (b : Bool) (s : State) : (s.symbolStep b).draws = s.draws := by simp [State.symbolStep]

@[simp] theorem State.symbolStep_inputs (b : Bool) (s : State) : (s.symbolStep b).inputs = s.inputs := by simp [State.symbolStep]

@[simp] theorem State.symbolStep_encoderCall (b : Bool) (s : State) : (s.symbolStep b).encoderCall = s.encoderCall := by simp [State.symbolStep]

@[simp] theorem State.sequencerStep_mem (s : State) : s.sequencerStep.mem = s.mem := by
  unfold State.sequencerStep; split <;> simp

@[simp] theorem State.sequencerStep_hc (s : State) : s.sequencerStep.hc = s.hc := by
  unfold State.sequencerStep; split <;> simp

@[simp] theorem State.sequencerStep_cfg (s : State) : s.sequencerStep.cfg = s.cfg := by
  unfold State.sequencerStep; split <;> simp

@[simp] theorem State.sequencerStep_pinsel (s : State) : s.sequencerStep.pinsel = s.pinsel := by
  unfold State.sequencerStep; split <;> simp

@[simp] theorem State.sequencerStep_draws (s : State) : s.sequencerStep.draws = s.draws := by
  unfold State.sequencerStep; split <;> simp

@[simp] theorem State.sequencerStep_inputs (s : State) : s.sequencerStep.inputs = s.inputs := by
  unfold State.sequencerStep; split <;> simp

@[simp] theorem State.sequencerStep_encoderCall (s : State) : s.sequencerStep.encoderCall = s.encoderCall := by
  unfold State.sequencerStep; split <;> simp

@[simp] theorem State.settle_mem (s : State) : s.settle.mem = s.mem := by
  unfold State.settle; split <;> simp

@[simp] theorem State.settle_hc (s : State) : s.settle.hc = s.hc := by
  unfold State.settle; split <;> simp

@[simp] theorem State.settle_cfg (s : State) : s.settle.cfg = s.cfg := by
  unfold State.settle; split <;> simp

@[simp] theorem State.settle_pinsel (s : State) : s.settle.pinsel = s.pinsel := by
  unfold State.settle; split <;> simp

@[simp] theorem State.settle_draws (s : State) : s.settle.draws = s.draws := by
  unfold State.settle; split <;> simp

@[simp] theorem State.settle_inputs (s : State) : s.settle.inputs = s.inputs := by
  unfold State.settle; split <;> simp

@[simp] theorem State.settle_encoderCall (s : State) : s.settle.encoderCall = s.encoderCall := by
  unfold State.settle; split <;> simp

@[simp] theorem State.symbolStep_rep (b : Bool) (s : State) : (s.symbolStep b).rep = s.rep := by simp [State.symbolStep]

/-! ### advance() and the symbol step -/

theorem phaseSymbols_le (p : Phase) (hc : Bool) : phaseSymbols p hc ≤ 72 := by
  cases p <;> cases hc <;> decide

/-- What advance() can do (spec/43_tx_sequencer.md R174): the next segment; the next symbol of the phase; or the next phase. -/
theorem State.advance_cases (s : State) :
    (s.seg.val < 2 ∧ s.advance = { s with seg := s.seg + 1 }) ∨
    (s.seg.val = 2 ∧ s.bitcnt.toNat + 1 < phaseSymbols s.phase s.hc ∧
      s.advance = { s with seg := 0, bitcnt := s.bitcnt + 1#7 }) ∨
    (s.seg.val = 2 ∧ phaseSymbols s.phase s.hc ≤ s.bitcnt.toNat + 1 ∧
      s.advance = { s with seg := 0, bitcnt := 0#7, phase := nextPhase s.phase s.rep }) := by
  have h3 := s.seg.isLt
  unfold State.advance
  split
  · exact .inl ⟨‹_›, rfl⟩
  · split
    · exact .inr (.inl ⟨by omega, ‹_›, rfl⟩)
    · exact .inr (.inr ⟨by omega, by omega, rfl⟩)

/-- The symbol counter never wraps (R174). -/
theorem State.bitcnt_succ_toNat (s : State) (h : s.bitcnt.toNat + 1 < phaseSymbols s.phase s.hc) :
    (s.bitcnt + 1#7).toNat = s.bitcnt.toNat + 1 := by
  have := phaseSymbols_le s.phase s.hc
  rw [BitVec.toNat_add]
  simp
  omega

/-- The state a symbol step advances from: level, timer and events of the segment (R173). -/
theorem State.symbolStep_eq (b : Bool) (s : State) :
    s.symbolStep b =
      ({ s with
        tx := segLevel b s.seg, tmr := BitVec.ofNat 14 (segTicks s.seg)
        trace := s.trace ++ segEvents b s.seg } : State).advance := by
  simp [State.symbolStep, State.setLevel, State.loadTimer, segEvents]

@[simp] theorem State.symbolStep_tx (b : Bool) (s : State) : (s.symbolStep b).tx = segLevel b s.seg := by
  simp [State.symbolStep]

@[simp] theorem State.symbolStep_tmr (b : Bool) (s : State) : (s.symbolStep b).tmr = BitVec.ofNat 14 (segTicks s.seg) := by
  simp [State.symbolStep]

@[simp] theorem State.symbolStep_trace (b : Bool) (s : State) : (s.symbolStep b).trace = s.trace ++ segEvents b s.seg := by
  simp [State.symbolStep_eq]

/-- What a symbol step can do to the position (R174). -/
theorem State.symbolStep_cases (b : Bool) (s : State) :
    (s.seg.val < 2 ∧ (s.symbolStep b).seg = s.seg + 1 ∧ (s.symbolStep b).bitcnt = s.bitcnt ∧
      (s.symbolStep b).phase = s.phase) ∨
    (s.seg.val = 2 ∧ s.bitcnt.toNat + 1 < phaseSymbols s.phase s.hc ∧ (s.symbolStep b).seg = 0 ∧
      (s.symbolStep b).bitcnt = s.bitcnt + 1#7 ∧ (s.symbolStep b).phase = s.phase) ∨
    (s.seg.val = 2 ∧ phaseSymbols s.phase s.hc ≤ s.bitcnt.toNat + 1 ∧ (s.symbolStep b).seg = 0 ∧
      (s.symbolStep b).bitcnt = 0#7 ∧ (s.symbolStep b).phase = nextPhase s.phase s.rep) := by
  rw [State.symbolStep_eq]
  rcases State.advance_cases ({ s with
      tx := segLevel b s.seg, tmr := BitVec.ofNat 14 (segTicks s.seg)
      trace := s.trace ++ segEvents b s.seg } : State) with ⟨h, he⟩ | ⟨h, h', he⟩ | ⟨h, h', he⟩
  · exact .inl ⟨h, by simp [he]⟩
  · exact .inr (.inl ⟨h, h', by simp [he]⟩)
  · exact .inr (.inr ⟨h, h', by simp [he]⟩)

/-! ### The sequencer's step by phase (spec/43_tx_sequencer.md R173, R176, R177, R178) -/

theorem State.sequencerStep_idle {s : State} (h : s.phase = .idle) : s.sequencerStep = s := by
  simp [State.sequencerStep, h]

theorem State.sequencerStep_gap {s : State} (h : s.phase = .gap) : s.sequencerStep = s.gapStep := by
  simp [State.sequencerStep, h]

theorem State.sequencerStep_done {s : State} (h : s.phase = .done) : s.sequencerStep = s.doneStep := by
  simp [State.sequencerStep, h]

/-- In the three symbol phases the step is a symbol step for the bit at the position. -/
theorem State.sequencerStep_symbol {s : State} (h : s.phase = .preamble ∨ s.phase = .payload ∨ s.phase = .postamble) :
    s.sequencerStep = s.symbolStep (Safety.symbolBit s) := by
  rcases h with h | h | h <;> simp [State.sequencerStep, Safety.symbolBit, State.frameBit, h]

theorem State.settle_idle {s : State} (h : s.phase = .idle) : s.settle = s := by
  simp [State.settle, State.enabled, State.busy, h]

theorem State.settle_running {s : State} (h : s.tmr ≠ 0#14) : s.settle = s := by
  simp [State.settle, State.enabled, h]

theorem State.settle_expired {s : State} (h : s.tmr = 0#14) : s.settle = s.sequencerStep := by
  by_cases hp : s.phase = .idle
  · rw [State.settle_idle hp, State.sequencerStep_idle hp]
  · simp [State.settle, State.enabled, State.busy, h, hp]

/-- The sequencer's step reads no input port. -/
theorem State.sequencerStep_setInputs (s : State) (l : List Inputs) :
    ({ s with inputs := l } : State).sequencerStep = { s.sequencerStep with inputs := l } := by
  cases hp : s.phase <;>
    simp [State.sequencerStep, hp, State.symbolStep, State.gapStep, State.doneStep, State.setLevel, State.loadTimer,
      State.advance, State.frameBit] <;>
    (repeat' split) <;> rfl

theorem State.settle_setInputs (s : State) (l : List Inputs) :
    ({ s with inputs := l } : State).settle = { s.settle with inputs := l } := by
  unfold State.settle
  by_cases h : s.enabled = true
  · rw [if_pos h, if_pos (show ({ s with inputs := l } : State).enabled = true from h), State.sequencerStep_setInputs]
  · rw [if_neg h, if_neg (show ¬ ({ s with inputs := l } : State).enabled = true from h)]

theorem segTicks_cases (k : Fin 3) : segTicks k = 512 ∨ segTicks k = 1024 := by
  unfold segTicks; split <;> simp [Config.twoT, Config.tUs]

/-- The timer a symbol step loads runs: it is not 0, and not above the gap's. -/
theorem segTicks_loaded (k : Fin 3) :
    (BitVec.ofNat 14 (segTicks k)) ≠ 0#14 ∧ (BitVec.ofNat 14 (segTicks k)).toNat = segTicks k ∧ segTicks k ≤ Config.gapUs := by
  rcases segTicks_cases k with h | h <;> rw [h] <;> decide

theorem symbolsHere_eq (s : State) : Safety.symbolsHere s = phaseSymbols s.phase s.hc := by
  unfold Safety.symbolsHere phaseSymbols
  cases s.phase <;> cases s.hc <;> rfl

end Sys2Proof.Machine
end

