-- ==== Sys2Proof/Laws/Step.lean ====
section
/-! SUPPORT. What a clock edge can do, said once: every proof about `step` starts from `step_cases`. -/
namespace Sys2Proof.Machine

/-- An edge that answers a next state is a reset edge, an edge with nothing fetched, or an edge that runs one instruction. -/
theorem step_cases {s t : State} (h : step s = .next t) :
    (s.sample.rst = true ∧ t = s.resetEdge) ∨
    (s.sample.rst = false ∧ s.stuck = false ∧ s.fetch = none ∧ t = s.countTick.settle.nextInputs) ∨
    (s.sample.rst = false ∧ s.stuck = false ∧ ∃ w i u, s.fetch = some w ∧ decode w = .ok i ∧
      exec i s.countTick.takeCall = .next u ∧ t = u.settle.nextInputs) := by
  unfold step at h
  split at h
  · rename_i hr
    exact .inl ⟨hr, by cases h; rfl⟩
  · rename_i hr
    split at h
    · cases h
    · rename_i hs
      have hr' : s.sample.rst = false := by simpa using hr
      have hs' : s.stuck = false := by simpa using hs
      split at h
      · rename_i hf
        exact .inr (.inl ⟨hr', hs', hf, by cases h; rfl⟩)
      · rename_i w hf
        split at h
        · cases h
        · rename_i i hd
          cases he : exec i s.countTick.takeCall with
          | next u =>
            rw [he] at h
            exact .inr (.inr ⟨hr', hs', w, i, u, hf, hd, he, by cases h; rfl⟩)
          | fault r => rw [he] at h; cases h
          | refused r => rw [he] at h; cases h

/-- Every instruction completes: no operand and no state makes one fault or be refused (spec/60_exceptions.md R210). -/
theorem exec_next (i : Instr) (s : State) : ∃ t, exec i s = .next t := by
  cases i with
  | send hum temp bok =>
    show ∃ t, execSend hum temp bok s = .next t
    unfold execSend
    split <;> exact ⟨_, rfl⟩
  | _ => exact ⟨_, rfl⟩

/-- A word is fetched in an idle block only (spec/44_commands.md R190). -/
theorem fetch_some {s : State} {w : FetchWord} (h : s.fetch = some w) :
    s.phase = .idle ∧ ((∃ l, s.encoderCall = some l ∧ w = .line l) ∨
      (s.encoderCall = none ∧ s.sample.cmdValid = true ∧ w = .command s.sample.cmdData)) := by
  unfold State.fetch at h
  split at h
  · rename_i hp
    refine ⟨hp, ?_⟩
    split at h
    · rename_i l hl
      exact .inl ⟨l, hl, by cases h; rfl⟩
    · rename_i hn
      split at h
      · rename_i hv
        exact .inr ⟨hn, hv, by cases h; rfl⟩
      · cases h
  · cases h

theorem fetch_busy {s : State} (h : s.phase ≠ .idle) : s.fetch = none := by
  unfold State.fetch
  split
  · rename_i hp; exact absurd hp h
  · rfl

/-- An edge while a send is in flight: nothing is fetched. -/
theorem step_busy {s : State} (h : s.phase ≠ .idle) :
    step s = if s.sample.rst then .next s.resetEdge
      else if s.stuck then .fault .sequencerStuck
      else .next s.countTick.settle.nextInputs := by
  simp [step, fetch_busy h, State.endEdge]

/-- A line word stands for no host command, so for no SEND. -/
theorem decodeLine_ne_send {l : LineWord} {hum : Byte} {temp : BitVec 32} {bok : Bool} :
    decodeLine l ≠ .ok (.send hum temp bok) := by
  unfold decodeLine
  simp only
  split <;> (repeat' split) <;> simp

/-- An instruction leaves the phase as it is, but for a SEND in a configured block, which enters PREAMBLE at the start of the
position (spec/43_tx_sequencer.md R179). -/
theorem exec_phase {i : Instr} {s t : State} (h : exec i s = .next t) :
    (t.phase = s.phase ∧ t.bitcnt = s.bitcnt ∧ t.seg = s.seg ∧ t.rep = s.rep) ∨
    (∃ hum temp bok, i = .send hum temp bok ∧ s.cfg = true ∧ t = (s.update hum temp bok).enter) := by
  cases i with
  | send hum temp bok =>
    have h' : execSend hum temp bok s = .next t := h
    unfold execSend at h'
    split at h'
    · rename_i hc
      exact .inr ⟨hum, temp, bok, rfl, hc, by cases h'; rfl⟩
    · cases h'; exact .inl ⟨rfl, rfl, rfl, rfl⟩
  | zero => cases h; left; simp [State.emitZero]
  | one => cases h; left; simp [State.emitOne]
  | nibbleLo v => cases h; left; simp [State.emitNibbleLo_eq]
  | nibbleHi v => cases h; left; simp [State.emitNibbleHi_eq]
  | byte v => cases h; left; simp [State.emitByte_eq]
  | preamble => cases h; left; simp [State.emitPreamble_eq]
  | postambleT => cases h; left; simp [State.emitNibbleLo_eq]
  | postambleTH => cases h; left; simp [State.emitByte_eq]
  | _ => cases h; exact .inl ⟨rfl, rfl, rfl, rfl⟩

/-- Where nothing is invoked by itself, consuming the call changes nothing. -/
theorem State.takeCall_eq {s : State} (h : s.encoderCall = none) : s.takeCall = s := by
  cases s; cases h; rfl

/-- A timer at 0 stands. -/
theorem State.countTick_eq {s : State} (h : s.tmr = 0#14) : s.countTick = s := by
  simp [State.countTick, State.tick, h]

end Sys2Proof.Machine
end

