-- ==== Sys2Proof/Laws/Run.lean ====
section
/-! SUPPORT. Runs of ticks: a segment that is loaded runs out after its ticks, and the sequencer then takes its next step. -/
namespace Sys2Proof.Machine

/-- From here on no edge resets, and every edge brings a tick. -/
def State.Ticking (s : State) : Prop := ∀ x ∈ s.inputs, x.rst = false ∧ x.tickUs = true

theorem State.Ticking.sample {s : State} (h : s.Ticking) : s.sample.rst = false ∧ s.sample.tickUs = true := by
  unfold State.sample
  cases hi : s.inputs with
  | nil => exact ⟨rfl, rfl⟩
  | cons x xs => exact h x (by simp [hi])

theorem State.Ticking.of_inputs {s t : State} (h : s.Ticking) {n : Nat} (ht : t.inputs = s.inputs.drop n) : t.Ticking :=
  fun x hx => h x (List.mem_of_mem_drop (ht ▸ hx))

/-- The state at the moment the segment in flight has run out, `n` edges on. -/
def State.expired (s : State) (n : Nat) : State := { s with tmr := 0#14, inputs := s.inputs.drop n }

/-- Runs of steps compose. -/
theorem run_add (m n : Nat) {s t : State} (h : Host.Core.run core m s = .next t) :
    Host.Core.run core (m + n) s = Host.Core.run core n t := by
  induction m generalizing s with
  | zero => cases h; rw [Nat.zero_add]
  | succ m ih =>
    rw [Nat.succ_add]
    simp only [Host.Core.run] at h ⊢
    cases hs : core.step s with
    | next u => rw [hs] at h; simp only at h ⊢; exact ih h
    | fault r => rw [hs] at h; cases h
    | refused r => rw [hs] at h; cases h

theorem run_succ {n : Nat} {s t : State} (h : step s = .next t) :
    Host.Core.run core (n + 1) s = Host.Core.run core n t := by
  rw [Nat.add_comm]
  exact run_add 1 n (by simp only [Host.Core.run]; rw [show core.step s = step s from rfl, h])

/-- One edge with a tick while a send is in flight. -/
theorem step_tick {s : State} (hp : s.phase ≠ .idle) (hs : s.stuck = false) (ht : s.Ticking) :
    step s = .next s.tick.settle.nextInputs := by
  obtain ⟨hr, hk⟩ := ht.sample
  simp [step, hr, hs, fetch_busy hp, State.endEdge, State.countTick, hk]

/-- While a send is in flight and not stuck, the ticks of the segment in flight pass, and at the last of them the sequencer
takes its step (spec/60_exceptions.md R216, R217). -/
theorem run_segment {s : State} {d : Nat} (hp : s.phase ≠ .idle) (hs : s.stuck = false) (ht : s.Ticking)
    (hd : s.tmr.toNat = d + 1) : Host.Core.run core (d + 1) s = .next (s.expired (d + 1)).sequencerStep := by
  induction d generalizing s with
  | zero =>
    have h1 : s.tmr = 1#14 := BitVec.eq_of_toNat_eq (by simpa using hd)
    have hstep := step_tick hp hs ht
    have htick : s.tick = { s with tmr := 0#14 } := by rw [State.tick_eq, h1]; rfl
    rw [run_succ hstep, htick, State.settle_expired rfl]
    simp only [Host.Core.run]
    congr 1
    rw [show s.expired 1 = { ({ s with tmr := 0#14 } : State) with inputs := s.inputs.tail } by simp [State.expired],
      State.sequencerStep_setInputs]
    rw [State.nextInputs, State.sequencerStep_inputs]
  | succ d ih =>
    have hne : s.tmr ≠ 0#14 := fun h => by rw [h] at hd; simp at hd
    have htick : s.tick = { s with tmr := s.tmr - 1#14 } := by rw [State.tick_eq, if_neg hne]
    have hsub : (s.tmr - 1#14).toNat = d + 1 := by
      have := s.tmr.isLt
      rw [BitVec.toNat_sub]
      simp
      omega
    have hne' : s.tmr - 1#14 ≠ 0#14 := fun h => by rw [h] at hsub; simp at hsub
    rw [run_succ (step_tick hp hs ht), htick, State.settle_running hne']
    rw [ih (s := ({ s with tmr := s.tmr - 1#14 } : State).nextInputs) hp ?_ (ht.of_inputs (n := 1) (by simp)) hsub]
    · simp [State.expired, State.nextInputs]
    · have : s.stuck = false := hs
      simp only [State.stuck, State.busy, State.bitcntInRange, State.nextInputs, Config.gapUs] at this ⊢
      simp only [Bool.and_eq_false_iff, Bool.not_eq_false', Bool.and_eq_true] at this ⊢
      rcases this with h | ⟨⟨h1, h2⟩, h3⟩
      · exact .inl h
      · exact .inr ⟨⟨h1, decide_eq_true (by have := of_decide_eq_true h2; omega)⟩, h3⟩

end Sys2Proof.Machine
end

