-- ==== Sys2Proof/Tests/Slice0.lean ====
section
/-! SUPPORT. Tests of one step or one operation, their expected results from spec/ (the vectors of spec/95_test_vectors.md and the
examples of the rules), and a witness for the hypotheses of each statement of Certificates/Slice0/Obligations.lean that has some. -/
namespace Sys2Proof.Tests

open Sys2Proof Sys2Proof.Machine Sys2Proof.Safety

/-! ### Helpers -/

/-- A frame buffer that holds `bs` from address 0. -/
def frame (bs : List Byte) : Memory :=
  (bs.zip [0, 1, 2, 3, 4, 5, 6, 7, 8]).foldl (fun m p => m.write p.2 p.1) ⟨[]⟩

/-- The nine bytes of the frame buffer. -/
def bytes (m : Memory) : List Byte := (List.range 9).map m.read

/-- An idle, configured block. -/
def ready (hc : Bool) (bs : List Byte) : State := { State.reset with mem := frame bs, hc := hc, cfg := true, pinsel := 3#8 }

/-- Program P1 after its CONFIGURE: variant T (spec/95_test_vectors.md). -/
def readyT : State := ready false [0xEA#8, 0x4C#8, 0x10#8, 0x42#8]

/-- Program P2 after its CONFIGURE: variant TH. -/
def readyTH : State := ready true [0x1A#8, 0x2D#8, 0x20#8, 0xBB#8]

/-- `s` with a command word on the port at the coming edge, and no tick. -/
def offered (s : State) (w : CommandWord) : State := { s with inputs := [⟨false, false, true, w⟩] }

/-- `s` with a tick, and no command, at the coming edge. -/
def ticked (s : State) : State := { s with inputs := [⟨false, true, false, 0⟩] }

/-- `s` with reset, a tick and a command at the coming edge. -/
def resetting (s : State) : State := { s with inputs := [⟨true, true, true, 0x2070000000000000#64⟩] }

/-- The send of program P1 in flight at a position, in a segment of level `tx` with `tmr` ticks left of `d`. -/
def sending (p : Phase) (rep : Bool) (bit : BitVec 7) (seg : Fin 3) (tmr : BitVec 14) (tx : Bool) (d : Nat) : State :=
  { ready false [0xEA#8, 0x4C#8, 0x10#8, 0x42#8, 0x50#8, 0x21#8, 0xD0#8, 0x02#8] with
    phase := p, rep := rep, bitcnt := bit, seg := seg, tmr := tmr, tx := tx, trace := [levelEvent tx, .W d] }

/-- The frame after a step. -/
def frameAfter : Host.Outcome State Fault Refusal → List Byte
  | .next t => bytes t.mem
  | .fault _ => []
  | .refused _ => []

/-- The trace after a step. -/
def traceAfter : Host.Outcome State Fault Refusal → List Event
  | .next t => t.trace
  | .fault _ => []
  | .refused _ => []

/-- `HC`, `CFG`, `PINSEL`, `PHASE` and `TX` after a step. -/
def controlAfter : Host.Outcome State Fault Refusal → Option (Bool × Bool × Byte × Phase × Bool)
  | .next t => some (t.hc, t.cfg, t.pinsel, t.phase, t.tx)
  | .fault _ => none
  | .refused _ => none

/-! ### Well-formedness: an ill-formed term for each check -/

theorem test_reserved67_opcode_out_of_row : (Instr.reserved67 0x8#4).wellFormed = false := by decide
theorem test_reserved8F_opcode_out_of_row : (Instr.reserved8F 0x7#4).wellFormed = false := by decide
theorem test_nibbleLo_high_nibble_set : (Instr.nibbleLo 0x10#8).wellFormed = false := by decide
theorem test_nibbleHi_low_nibble_set : (Instr.nibbleHi 0x01#8).wellFormed = false := by decide

/-! ### Decoding: a word of each row, written out from spec/30_encoding.md R70, R71, R79 to R81, R87

A command word is OP(4) A(8) B(8) C(8) reserved(3) FLAG(1) TEMP(32), from the most significant bit. -/

/-- V2.100. -/
theorem test_decode_nop : decodeTableWord 64 0x0000000000000000 = some .nop := by decide
/-- V2.102: `0001 00000101 00100000 10111011 000 1 0...0`. -/
theorem test_decode_configure :
    decodeTableWord 64 (0b0001000001010010000010111011 * 2 ^ 36 + 2 ^ 32) = some (.configure 0x05#8 0x20#8 0xBB#8 true) := by
  decide
/-- V2.103. -/
theorem test_decode_setPin : decodeTableWord 64 0x2070000000000000 = some (.setPin 0x07#8) := by decide
/-- V2.104. -/
theorem test_decode_setHc : decodeTableWord 64 0x3000000100000000 = some (.setHc true) := by decide
/-- V2.106: `B` is the channel and `C` the id. -/
theorem test_decode_setIdch : decodeTableWord 64 0x40020BB000000000 = some (.setIdch 0xBB#8 0x20#8) := by decide
/-- V2.109: junk in `B`, `C` and bits 35:33. -/
theorem test_decode_send : decodeTableWord 64 0x52FABCDEC0A9999A = some (.send 0x2F#8 0xC0A9999A#32 false) := by decide
/-- V2.110, the first word of the range. -/
theorem test_decode_reserved67 : decodeTableWord 64 0x6000000000000000 = some (.reserved67 0x6#4) := by decide
/-- V2.110, the last word of the range. -/
theorem test_decode_reserved8F : decodeTableWord 64 0xFFFFFFFFFFFFFFFF = some (.reserved8F 0xF#4) := by decide
/-- R87 (b): `1001`. -/
theorem test_decode_zero : decodeTableWord 4 0b1001 = some .zero := by decide
/-- R87 (b): `0110`. -/
theorem test_decode_one : decodeTableWord 4 0b0110 = some .one := by decide
/-- R87 (c): `abcd` for `v = 0x0C`, bits `0 0 1 1` in time order (V2.12), under kind 1. -/
theorem test_decode_nibbleLo : decodeTableWord 24 (0x10000 + 0b1100) = some (.nibbleLo 0x0C#8) := by decide
/-- R87 (c): `efgh` for `v = 0x40`, bits `0 0 1 0` in time order (V2.12), under kind 2. -/
theorem test_decode_nibbleHi : decodeTableWord 24 (0x20000 + 0b0100) = some (.nibbleHi 0x40#8) := by decide
/-- R87 (c): `abcdefgh` for `v = 0xEA`, bits `0 1 0 1 0 1 1 1` in time order (V2.5), under kind 3. -/
theorem test_decode_byte : decodeTableWord 24 (0x30000 + 0b11101010) = some (.byte 0xEA#8) := by decide
/-- R87 (c): sixteen `1`. -/
theorem test_decode_preamble : decodeTableWord 16 0b1111111111111111 = some .preamble := by decide
/-- R87 (c): four `0`, under kind 4. -/
theorem test_decode_postambleT : decodeTableWord 24 0x40000 = some .postambleT := by decide
/-- R87 (c): eight `0`. -/
theorem test_decode_postambleTH : decodeTableWord 8 0b00000000 = some .postambleTH := by decide
/-- A line word of no row is refused by name (assumption 4). -/
theorem test_decode_refuses :
    decode (.line 0x050000#24) = .error .unknownKind ∧ decode (.line 0x000001#24) = .error .notTheRowsPattern := by
  constructor <;> rfl

/-! ### One step of each command, at the port -/

/-- R191, at the port: nothing changes but the port. -/
theorem test_nop : step (offered readyT 0) = .next readyT := rfl
/-- R192's example, from reset. -/
theorem test_configure :
    frameAfter (step (offered State.reset 0x1031042000000000#64)) = [0xEA#8, 0x4C#8, 0x10#8, 0x42#8, 0, 0, 0, 0, 0] ∧
    controlAfter (step (offered State.reset 0x1031042000000000#64)) = some (false, true, 3#8, .idle, false) := by decide
/-- P4, command 3: `CFG` stays 0. -/
theorem test_setPin :
    controlAfter (step (offered State.reset 0x2090000000000000#64)) = some (false, false, 9#8, .idle, false) := by decide
/-- P3, command 3: the type is rewritten, bytes 2 to 8 are kept. -/
theorem test_setHc :
    frameAfter (step (offered (ready true [0x1A#8, 0x2D#8, 0x30#8, 0x7F#8, 0x70#8, 0x23#8, 0x90#8, 0x09#8, 0x47#8])
      0x3000000000000000#64)) = [0xEA#8, 0x4C#8, 0x30#8, 0x7F#8, 0x70#8, 0x23#8, 0x90#8, 0x09#8, 0x47#8] := by decide
/-- P4, command 2, before CONFIGURE. -/
theorem test_setIdch :
    frameAfter (step (offered State.reset 0x40030A5000000000#64)) = [0, 0, 0x30#8, 0xA5#8, 0, 0, 0, 0, 0] := by decide
/-- P1's SEND, variant T: the frame, and the first segment of the first ONE started at the same edge (V2.92, `t = 0`). -/
theorem test_send_T :
    frameAfter (step (offered readyT 0x5000000141AC0000#64)) =
      [0xEA#8, 0x4C#8, 0x10#8, 0x42#8, 0x50#8, 0x21#8, 0xD0#8, 0x02#8, 0] ∧
    controlAfter (step (offered readyT 0x5000000141AC0000#64)) = some (false, true, 3#8, .preamble, false) ∧
    traceAfter (step (offered readyT 0x5000000141AC0000#64)) = [.L, .W 512] := by decide
/-- P2's SEND, variant TH, with V2.109's junk in the word. -/
theorem test_send_TH :
    frameAfter (step (offered readyTH 0x52FABCDEC0A9999A#64)) =
      [0x1A#8, 0x2D#8, 0x20#8, 0xBB#8, 0x3C#8, 0x05#8, 0x78#8, 0x04#8, 0x4F#8] := by decide
/-- P4, command 1: a SEND before CONFIGURE (R197). -/
theorem test_send_before_configure : step (offered State.reset 0x5320000141200000#64) = .next State.reset := rfl
/-- R198, the first and the last opcode of the row. -/
theorem test_reserved67 :
    step (offered readyT 0x6FFFFFFFFFFFFFFF#64) = .next readyT ∧ step (offered readyT 0x7000000000000000#64) = .next readyT :=
  ⟨rfl, rfl⟩
/-- R198, the first and the last opcode of the row. -/
theorem test_reserved8F :
    step (offered readyT 0x8FFFFFFFFFFFFFFF#64) = .next readyT ∧ step (offered readyT 0xF000000000000000#64) = .next readyT :=
  ⟨rfl, rfl⟩

/-! ### The line operations -/

/-- V2.1. -/
theorem test_zero : traceAfter (exec .zero State.reset) = [.H, .W 512, .L, .W 1024, .H, .W 512] := by decide
/-- V2.2. -/
theorem test_one : traceAfter (exec .one State.reset) = [.L, .W 512, .H, .W 1024, .L, .W 512] := by decide
/-- V2.12: the low nibble of `0x4C` sends `0 0 1 1`: runs `hLHLhlHLHl`. -/
theorem test_nibbleLo :
    wireFrom false (traceAfter (exec (.nibbleLo 0x4C#8) State.reset)) =
      [(true, 512), (false, 1024), (true, 1024), (false, 1024), (true, 512), (false, 512), (true, 1024), (false, 1024),
        (true, 1024), (false, 512)] := by decide
/-- V2.12: the high nibble of `0x4C` sends `0 0 1 0`: the trace is that of the symbols. -/
theorem test_nibbleHi :
    traceAfter (exec (.nibbleHi 0x4C#8) State.reset) =
      [.H, .W 512, .L, .W 1024, .H, .W 512, .H, .W 512, .L, .W 1024, .H, .W 512,
        .L, .W 512, .H, .W 1024, .L, .W 512, .H, .W 512, .L, .W 1024, .H, .W 512] := by decide
/-- V2.5: `BYTE(0xEA)`, run string `hLhlHlhLhlHlhLhlHLHLHl`. -/
theorem test_byte :
    wireFrom false (traceAfter (exec (.byte 0xEA#8) State.reset)) =
      [(true, 512), (false, 1024), (true, 512), (false, 512), (true, 1024), (false, 512), (true, 512), (false, 1024),
        (true, 512), (false, 512), (true, 1024), (false, 512), (true, 512), (false, 1024), (true, 512), (false, 512),
        (true, 1024), (false, 1024), (true, 1024), (false, 1024), (true, 1024), (false, 512)] := by decide
/-- V2.13: 48 segments, 32768 ticks, 33 runs. -/
theorem test_preamble :
    (segmentsFrom false (traceAfter (exec .preamble State.reset))).length = 48 ∧
    ticksOf (traceAfter (exec .preamble State.reset)) = 32768 ∧
    (wireFrom false (traceAfter (exec .preamble State.reset))).length = 33 := by decide +kernel
/-- V2.12: `NIBBLE_LO(0x00)`, runs `hLHLHLHLh`, 8192 ticks. -/
theorem test_postambleT :
    wireFrom false (traceAfter (exec .postambleT State.reset)) =
      [(true, 512), (false, 1024), (true, 1024), (false, 1024), (true, 1024), (false, 1024), (true, 1024), (false, 1024),
        (true, 512)] ∧
    ticksOf (traceAfter (exec .postambleT State.reset)) = 8192 := by decide
/-- V2.7: `BYTE(0x00)`, 17 runs, 16384 ticks, ends high. -/
theorem test_postambleTH :
    (wireFrom false (traceAfter (exec .postambleTH State.reset))).length = 17 ∧
    ticksOf (traceAfter (exec .postambleTH State.reset)) = 16384 ∧
    levelAfter false (traceAfter (exec .postambleTH State.reset)) = true := by decide

/-! ### Operations -/

/-- `F[6]`, `F[5]`, `F[4]` after SET_TEMPERATURE with `F[4] = 0` before. -/
def digits (r : Config.Rounding) (t : BitVec 32) : Byte × Byte × Byte :=
  let m := setTemperature r 0 0 t ⟨[]⟩
  (m.read 6, m.read 5, m.read 4)

/-- V2.41, V2.44, V2.45, V2.47, V2.53, V2.54, V2.60, V2.61. -/
theorem test_setTemperature :
    digits .b32 0xC0A9999A#32 = (0x08#8, 0x05#8, 0x30#8) ∧ digits .b32 0x80000000#32 = (0x00#8, 0x00#8, 0x00#8) ∧
    digits .b32 0x41AF999A#32 = (0x00#8, 0x21#8, 0xA0#8) ∧ digits .b32 0x41AA0000#32 = (0x00#8, 0x21#8, 0x30#8) ∧
    digits .b32 0x43200000#32 = (0x00#8, 0x00#8, 0x00#8) ∧ digits .b32 0xC31FF333#32 = (0x08#8, 0xF9#8, 0x90#8) ∧
    digits .b32 0x00000001#32 = (0x00#8, 0x00#8, 0x00#8) ∧ digits .b32 0x497FFFFE#32 = (0x00#8, 0x95#8, 0x90#8) := by decide
/-- V2.70, V2.71: the instances of `NUM.rnd` differ. -/
theorem test_rounding_instances :
    digits .b32 0x3F733333#32 = (0x00#8, 0x00#8, 0xA0#8) ∧ digits .exact 0x3F733333#32 = (0x00#8, 0x00#8, 0x90#8) ∧
    digits .b32 0x3FD33333#32 = (0x00#8, 0x01#8, 0x70#8) ∧ digits .exact 0x3FD33333#32 = (0x00#8, 0x01#8, 0x60#8) := by decide
/-- V2.62 to V2.66: no digits are defined; the sign byte is. -/
theorem test_out_of_range :
    (f32val 0x49800000#32).magnitude = none ∧ (f32val 0x7F800000#32).magnitude = none ∧
    (f32val 0x7FC00000#32).magnitude = none ∧ signByte 0xFF800000#32 = 0x08#8 ∧ signByte 0xFFC00000#32 = 0x00#8 := by decide
/-- V2.28, V2.29, V2.30. -/
theorem test_checksum :
    (checksum true ⟨[]⟩).read 8 = 0xF6#8 ∧
    ((checksum false (frame [0, 0, 0, 0, 0, 0, 0x08#8])).read 6 = 0xE8#8 ∧
      (checksum false (frame [0, 0, 0, 0, 0, 0, 0x08#8])).read 7 = 0x0F#8) ∧
    (checksum false (frame [0xEA#8, 0x4C#8, 0x10#8, 0x42#8, 0x50#8, 0x21#8, 0x78#8])).read 6 = 0x58#8 ∧
    (checksum false (frame [0xEA#8, 0x4C#8, 0x10#8, 0x42#8, 0x50#8, 0x21#8, 0x78#8])).read 7 = 0x03#8 := by decide
/-- V2.81, V2.85, V2.86, with `F[6] = 0x08` before. -/
theorem test_setHumidity :
    bytes (setHumidity 47#8 (frame [0, 0, 0, 0, 0, 0, 0x08#8])) = [0, 0, 0, 0, 0, 0, 0x78#8, 0x04#8, 0] ∧
    bytes (setHumidity 160#8 (frame [0, 0, 0, 0, 0, 0, 0x08#8])) = [0, 0, 0, 0, 0, 0, 0x08#8, 0x10#8, 0] ∧
    bytes (setHumidity 255#8 (frame [0, 0, 0, 0, 0, 0, 0x08#8])) = [0, 0, 0, 0, 0, 0, 0x58#8, 0x19#8, 0] := by decide

/-! ### The sequencer -/

/-- `PHASE`, `REP`, `BITCNT`, `SEG`, `TMR`, `TX`. -/
structure Position where
  phase : Phase
  rep : Bool
  bitcnt : BitVec 7
  seg : Fin 3
  tmr : BitVec 14
  tx : Bool
  deriving DecidableEq, Repr

/-- The sequencer's registers after a step. -/
def position : Host.Outcome State Fault Refusal → Option Position
  | .next t => some ⟨t.phase, t.rep, t.bitcnt, t.seg, t.tmr, t.tx⟩
  | .fault _ => none
  | .refused _ => none

/-- V2.92, the rows `t` = 512, 1536, 32256, 32768, 34816. -/
theorem test_symbol_steps :
    position (step (ticked (sending .preamble false 0 1 1 false 512))) = some ⟨.preamble, false, 0, 2, 1024, true⟩ ∧
    position (step (ticked (sending .preamble false 0 2 1 true 1024))) = some ⟨.preamble, false, 1, 0, 512, false⟩ ∧
    position (step (ticked (sending .preamble false 15 2 1 true 1024))) = some ⟨.payload, false, 0, 0, 512, false⟩ ∧
    position (step (ticked (sending .payload false 0 0 1 false 512))) = some ⟨.payload, false, 0, 1, 512, true⟩ ∧
    position (step (ticked (sending .payload false 1 0 1 true 512))) = some ⟨.payload, false, 1, 1, 512, false⟩ := by decide
/-- V2.92, the rows `t` = 163328, 171520, 172032, 351744, 352256. -/
theorem test_phase_steps :
    position (step (ticked (sending .payload false 63 2 1 false 1024))) = some ⟨.postamble, false, 0, 0, 512, true⟩ ∧
    position (step (ticked (sending .postamble false 3 2 1 false 1024))) = some ⟨.gap, false, 0, 0, 512, true⟩ ∧
    position (step (ticked (sending .gap false 0 0 1 true 512))) = some ⟨.preamble, true, 0, 0, 8192, false⟩ ∧
    position (step (ticked (sending .postamble true 3 2 1 false 1024))) = some ⟨.done, true, 0, 0, 512, true⟩ ∧
    position (step (ticked (sending .done true 0 0 1 true 512))) = some ⟨.idle, false, 0, 0, 0, false⟩ := by decide
/-- R247, R168: `ticksLeft` right after the steps at `t` = 0, 32768, 172032 and 351744 of a send of 352256 ticks. -/
theorem test_ticksLeft :
    ticksLeft (sending .preamble false 0 1 512 false 512) = 352256 ∧
    ticksLeft (sending .payload false 0 1 512 true 512) = 352256 - 32768 ∧
    ticksLeft (sending .preamble true 0 0 8192 false 8192) = 352256 - 172032 ∧
    ticksLeft (sending .done true 0 0 512 true 512) = 352256 - 351744 := by decide
/-- R190: a command waits on the port of a busy block; R216: without a tick the timer stands. -/
theorem test_busy_block_waits :
    position (step (offered (sending .gap false 0 0 7 true 512) 0x2070000000000000#64)) =
      some ⟨.gap, false, 0, 0, 7, true⟩ := by decide
/-- R232: reset in a send: the current wait is cut to the 312 ticks that passed, and an `L` appended. -/
theorem test_reset_in_a_send :
    traceAfter (step (resetting (sending .payload false 5 1 200 true 512))) = [.H, .W 312, .L] ∧
    controlAfter (step (resetting (sending .payload false 5 1 200 true 512))) = some (false, false, 0, .idle, false) := by decide
/-- U4: an impossible position is stuck. -/
theorem test_stuck : step (ticked (sending .payload false 64 0 1 true 512)) = .fault .sequencerStuck := rfl
/-- The host's presentation of a word of the table runs it at the next step (R191; R100). -/
theorem test_withFetchWord :
    controlAfter (step (State.reset.withFetchWord 64 0x2070000000000000)) = some (false, false, 7#8, .idle, false) ∧
    traceAfter (step (State.reset.withFetchWord 4 0b1001)) = [.H, .W 512, .L, .W 1024, .H, .W 512] := by decide


/-! ### Witnesses: a state and operands that meet all hypotheses of a statement together, for each of its clauses

Where a hypothesis says what a step or an instruction answers, the witness says that it answers a next state. -/

/-- `exec` or `step` answers a next state. -/
def answers : Host.Outcome State Fault Refusal → Bool
  | .next _ => true
  | .fault _ => false
  | .refused _ => false

theorem answers_next {o : Host.Outcome State Fault Refusal} (h : answers o = true) : ∃ t, o = .next t := by
  cases o with
  | next t => exact ⟨t, rfl⟩
  | fault r => cases h
  | refused r => cases h

/-- A state right after the first step of program P1's SEND. -/
def inFlight : State := sending .preamble false 0 1 512 false 512

theorem inv_readyT : Inv readyT :=
  ⟨by decide, by decide, by decide, by decide, by decide, by decide, by decide, by decide, by decide, by decide, by decide⟩

theorem inv_readyTH : Inv readyTH :=
  ⟨by decide, by decide, by decide, by decide, by decide, by decide, by decide, by decide, by decide, by decide, by decide⟩

theorem inv_inFlight : Inv inFlight :=
  ⟨by decide, by decide, by decide, by decide, by decide, by decide, by decide, by decide, by decide, by decide, by decide⟩

theorem inv_readyT_offered : Inv (offered readyT 0x5000000141AC0000#64) :=
  ⟨by decide, by decide, by decide, by decide, by decide, by decide, by decide, by decide, by decide, by decide, by decide⟩

/-- Idle; a wait of which ticks passed; a wait of which none did. -/
theorem witness_ResetEdgeClearsTheBlock :
    ((resetting readyT).sample.rst = true ∧ (resetting readyT).phase = .idle ∧ (resetting readyT).tx = false) ∧
    ((resetting (sending .payload false 5 1 200 true 512)).sample.rst = true ∧
      (resetting (sending .payload false 5 1 200 true 512)).phase ≠ .idle ∧
      (resetting (sending .payload false 5 1 200 true 512)).tmr.toNat < 512 ∧
      (resetting (sending .payload false 5 1 200 true 512)).trace = [.H] ++ [.W 512]) ∧
    (resetting (sending .payload false 5 1 512 true 512)).sample.rst = true ∧
      (resetting (sending .payload false 5 1 512 true 512)).phase ≠ .idle ∧
      (resetting (sending .payload false 5 1 512 true 512)).tmr.toNat = 512 ∧
      (resetting (sending .payload false 5 1 512 true 512)).trace = [.H] ++ [.W 512] := by decide

theorem witness_DecodeOfEncodeIsTheInstruction :
    ∀ i ∈ [Instr.nop, .configure 0xFF#8 0xFF#8 0xFF#8 true, .setPin 0xFF#8, .setHc true, .setIdch 0xFF#8 0x00#8,
      .send 0xFF#8 0xFFFFFFFF#32 true, .reserved67 0x6#4, .reserved67 0x7#4, .reserved8F 0x8#4, .reserved8F 0xF#4, .zero, .one,
      .nibbleLo 0x0F#8, .nibbleHi 0xF0#8, .byte 0xFF#8, .preamble, .postambleT, .postambleTH], i.wellFormed = true := by decide

theorem witness_DecodedInstructionsAreWellFormed :
    decode (.command 0x6FFFFFFFFFFFFFFF#64) = .ok (.reserved67 0x6#4) ∧ decode (.line 0x01000F#24) = .ok (.nibbleLo 0x0F#8) :=
  ⟨rfl, rfl⟩

/-- V2.108 and V2.109: different words, the same used bits. -/
theorem witness_IgnoredBitsDoNotMatter :
    0x52F00000C0A9999A#64 ≠ 0x52FABCDEC0A9999A#64 ∧
    0x52F00000C0A9999A#64 &&& usedBits (fieldOp 0x52F00000C0A9999A#64) =
      0x52FABCDEC0A9999A#64 &&& usedBits (fieldOp 0x52F00000C0A9999A#64) := by decide

/-- A command word, and an operation invoked by itself. -/
theorem witness_StepRunsTheFetchedInstruction :
    ((offered readyT 0x2070000000000000#64).sample.rst = false ∧ (offered readyT 0x2070000000000000#64).stuck = false ∧
      (offered readyT 0x2070000000000000#64).fetch = some (.command 0x2070000000000000#64) ∧
      decodeCommand 0x2070000000000000#64 = .setPin 0x07#8) ∧
    (({ readyT with encoderCall := some 0x000009#24 } : State).sample.rst = false ∧
      ({ readyT with encoderCall := some 0x000009#24 } : State).stuck = false ∧
      ({ readyT with encoderCall := some 0x000009#24 } : State).fetch = some (.line 0x000009#24)) ∧
    decodeTableWord 24 0x000009 = some .zero := by decide

theorem witness_CommandIsAcceptedWhileIdle :
    (offered readyT 0x5000000141AC0000#64).sample.rst = false ∧ (offered readyT 0x5000000141AC0000#64).phase = .idle ∧
    (offered readyT 0x5000000141AC0000#64).encoderCall = none ∧
    (offered readyT 0x5000000141AC0000#64).sample.cmdValid = true ∧
    answers (exec (decodeCommand (offered readyT 0x5000000141AC0000#64).sample.cmdData)
      (offered readyT 0x5000000141AC0000#64).countTick) = true := by decide

theorem witness_CommandWaitsWhileBusy : inFlight.phase ≠ .idle := by decide

theorem witness_NopChangesNothing : fieldOp 0x0000000000000000#64 = 0x0#4 ∧ fieldOp 0x0FFFFFFFFFFFFFFF#64 = 0x0#4 := by decide

/-- A word of each of the commands CONFIGURE, SET_PIN, SET_HC, SET_IDCH, V2.101 to V2.106; the first kept address. -/
theorem witness_ConfigureWritesItsOperands : fieldOp 0x1031042000000000#64 = 0x1#4 ∧ 4 ≤ 4 := by decide

theorem witness_SetPinWritesThePinSelectorOnly : fieldOp 0x2070000000000000#64 = 0x2#4 := by decide

theorem witness_SetHcRewritesTheTypeBytes : fieldOp 0x3000000100000000#64 = 0x3#4 ∧ 2 ≤ 2 := by decide

theorem witness_SetIdchWritesIdAndChannel : fieldOp 0x40020BB000000000#64 = 0x4#4 ∧ (1 ≠ 2 ∧ 1 ≠ 3) ∧ (4 ≠ 2 ∧ 4 ≠ 3) := by
  decide

theorem witness_ReservedOpcodesChangeNothing :
    6 ≤ (fieldOp 0x6000000000000000#64).toNat ∧ 6 ≤ (fieldOp 0xFFFFFFFFFFFFFFFF#64).toNat := by decide

/-- `F[8]` is kept in variant T; the other kept addresses at the ends of their ranges. -/
theorem witness_SendEntersTheTransmission :
    readyT.cfg = true ∧ readyTH.cfg = true ∧ readyT.hc = false ∧ (f32val 0x41AC0000#32).magnitude.isSome = true ∧
    (3 < 4 ∧ 8 < 9) := by decide

theorem witness_SendBeforeConfigureDoesNothing : State.reset.cfg = false := by decide

/-- A temperature at the largest magnitude still in range, in both variants. -/
theorem witness_SendPacksTheReading :
    readyT.cfg = true ∧ readyTH.cfg = true ∧ readyTH.hc = true ∧ (f32val 0x497FFFFE#32).magnitude ≠ none ∧
    answers (exec (.send 47#8 0x497FFFFE#32 false) readyT) = true ∧
    answers (exec (.send 255#8 0x497FFFFE#32 true) readyTH) = true := by decide

/-- `2^20`, an infinity, a NaN. -/
theorem witness_OutOfRangeTemperatureStillSends :
    readyT.cfg = true ∧ (f32val 0x49800000#32).magnitude = none ∧ (f32val 0xFF800000#32).magnitude = none ∧
    (f32val 0x7FC00000#32).magnitude = none := by decide

theorem witness_ChecksumReproducesTheStoredBytes :
    (readyT.cfg = true ∧ readyT.hc = false ∧ answers (exec (.send 0#8 0x41AC0000#32 true) readyT) = true) ∧
    (readyTH.cfg = true ∧ readyTH.hc = true ∧ answers (exec (.send 255#8 0xFF800000#32 false) readyTH) = true) := by decide

/-- Two blocks that agree on `HC` and `F[0..3]` and differ elsewhere; a temperature in range, and one outside it. -/
theorem witness_SendsLeaveNoResidue :
    readyT.cfg = true ∧ inFlight.cfg = true ∧ readyT.hc = inFlight.hc ∧ (∀ a < 4, readyT.mem.read a = inFlight.mem.read a) ∧
    readyT.mem ≠ inFlight.mem ∧ (f32val 0x41AC0000#32).magnitude.isSome = true ∧
    (f32val 0x7F800000#32).magnitude.isSome = false ∧ readyT.draws = inFlight.draws ∧
    answers (exec (.send 0#8 0x41AC0000#32 true) readyT) = true ∧
    answers (exec (.send 0#8 0x41AC0000#32 true) inFlight) = true := by decide

theorem witness_ConfigurationIsIdempotent :
    readyT.mem.wf ∧
    (∀ i ∈ [Instr.configure 5#8 0x20#8 0xBB#8 true, .setPin 9#8, .setHc true, .setIdch 0xA5#8 0x30#8],
      answers (exec i readyT) = true) := by decide

theorem witness_ConfigurationIsIdempotent_sequence :
    readyT.mem.wf ∧ ∃ s₁ s₂ s₃, exec (.setPin 5#8) readyT = .next s₁ ∧ exec (.setHc true) s₁ = .next s₂ ∧
      exec (.setIdch 0xBB#8 0x20#8) s₂ = .next s₃ :=
  ⟨by decide, _, _, _, rfl, rfl, rfl⟩

theorem witness_NibbleSumIsExact : 0 ≤ 9 ∧ 9 ≤ 9 := by decide

/-- The third clause's frame, V2.24, with the largest sign nibble. -/
theorem witness_ChecksumTStoresItsNibbles :
    (6 ≠ 8 ∧ 7 ≠ 8) ∧ (frame [0xEA#8, 0x4C#8, 0xFF#8, 0xFF#8, 0x9C#8, 0xF9#8, 0x08#8]).read 0 = 0xEA#8 ∧
    (frame [0xEA#8, 0x4C#8, 0xFF#8, 0xFF#8, 0x9C#8, 0xF9#8, 0x08#8]).read 1 = 0x4C#8 ∧
    (lo ((frame [0xEA#8, 0x4C#8, 0xFF#8, 0xFF#8, 0x9C#8, 0xF9#8, 0x08#8]).read 6)).toNat ≤ 8 := by decide

/-- V2.26. -/
theorem witness_ChecksumTHStoresItsByte :
    7 ≠ 8 ∧ (frame [0x1A#8, 0x2D#8, 0xFF#8, 0xFF#8, 0x9C#8, 0xF9#8, 0x50#8, 0x19#8]).read 0 = 0x1A#8 ∧
    (frame [0x1A#8, 0x2D#8, 0xFF#8, 0xFF#8, 0x9C#8, 0xF9#8, 0x50#8, 0x19#8]).read 1 = 0x2D#8 := by decide

theorem witness_UnitsDigitIsTheLastDecimalDigit : 0 < 2 ^ 20 ∧ 1048575 < 2 ^ 20 := by decide

theorem witness_TenthsDigitIsAtMostTen :
    (f32val 0x41AF999A#32).magnitude ≠ none ∧ (f32val 0x497FFFFE#32).magnitude ≠ none := by decide

/-- 21.5, where the two instances agree, and 0.95 (R142 (f)), where `rnd_b32` gives one more; an exact tie, 21.25 (R142 (c)). -/
theorem witness_TenthsDigitIsTheRoundedFraction :
    (f32val 0x41AC0000#32).magnitude.map (fun m => (tenthsDigit .exact m, tenthsDigit .b32 m)) = some (5, 5) ∧
    (f32val 0x3F733333#32).magnitude.map (fun m => (tenthsDigit .exact m, tenthsDigit .b32 m)) = some (9, 10) ∧
    (f32val 0x41AA0000#32).magnitude.map (fun m => (tenthsDigit .exact m, tenthsDigit .b32 m)) = some (3, 3) := by decide

/-- A value: 21.5 is `43/2`; and the largest pattern that has a magnitude. -/
theorem witness_TemperaturePatternHasItsValue :
    (∃ v, f32val 0xC1AC0000#32 = .finite v ∧ v.val = -43 / 2) ∧ (f32val 0x497FFFFF#32).magnitude.isSome = true ∧
    expField 0x497FFFFF#32 = 146 ∧ expField 0x49800000#32 = 147 ∧ (f32val 0x49800000#32).magnitude = none :=
  ⟨⟨⟨-11272192, 524288⟩, by decide, by norm_num [Frac.val]⟩, by decide, by decide, by decide, by decide⟩

/-- Zero; ties to the even number of units, below and above (`2^24 + 1` and `2^24 + 3`, the unit 2); the subnormal range, where the
unit is `2^-149` (the exponent -149). -/
theorem witness_RoundingFollowsItsFormula :
    (⟨0, 1⟩ : Frac).val = 0 ∧
    ((2 : ℚ) ^ (24 : Int) ≤ (⟨16777217, 1⟩ : Frac).val ∧ (⟨16777217, 1⟩ : Frac).val < (2 : ℚ) ^ ((24 : Int) + 1) ∧
      roundB32 ⟨16777217, 1⟩ = ⟨16777216, 1⟩) ∧
    ((2 : ℚ) ^ (24 : Int) ≤ (⟨16777219, 1⟩ : Frac).val ∧ (⟨16777219, 1⟩ : Frac).val < (2 : ℚ) ^ ((24 : Int) + 1) ∧
      roundB32 ⟨16777219, 1⟩ = ⟨16777220, 1⟩) ∧
    ((2 : ℚ) ^ (-149 : Int) ≤ (⟨3, 2 ^ 150⟩ : Frac).val ∧ (⟨3, 2 ^ 150⟩ : Frac).val < (2 : ℚ) ^ ((-149 : Int) + 1) ∧
      roundB32 ⟨3, 2 ^ 150⟩ = ⟨2, 2 ^ 149⟩) :=
  ⟨by norm_num [Frac.val], ⟨by norm_num [Frac.val], by norm_num [Frac.val], by decide⟩,
    ⟨by norm_num [Frac.val], by norm_num [Frac.val], by decide⟩,
    by norm_num [Frac.val], by norm_num [Frac.val], by decide⟩

/-- A fraction that is a binary32 value, not in its pattern's form: `6/4`, the pattern of 1.5; and `1/10 <= 1/5`. -/
theorem witness_RoundingKeepsBinary32ValuesAndOrder :
    (∃ v, f32val 0x3FC00000#32 = .finite v ∧ (⟨6, 4⟩ : Frac).val = v.val) ∧
    (⟨1, 10⟩ : Frac).val ≤ (⟨1, 5⟩ : Frac).val :=
  ⟨⟨⟨12582912, 8388608⟩, by decide, by norm_num [Frac.val]⟩, by norm_num [Frac.val]⟩

theorem witness_HumidityDigitsArePacked : (5 ≠ 6 ∧ 5 ≠ 7) ∧ (8 ≠ 6 ∧ 8 ≠ 7) := by decide

theorem witness_SymbolsShowOnlyShortRuns :
    (true, 512) ∈ wireFrom false (bitsEvents [false, false]) ∧ (true, 1024) ∈ wireFrom false (bitsEvents [false, false]) := by
  decide

/-- Each symbol phase; the segments 0, 1, 2; before the last symbol, and at it. -/
theorem witness_SymbolStepEmitsASegmentAndAdvances :
    (sending .preamble false 0 0 0 false 512).phase = .preamble ∧ (sending .preamble false 0 0 0 false 512).seg.val < 2 ∧
    (sending .payload false 62 2 0 true 1024).phase = .payload ∧ (sending .payload false 62 2 0 true 1024).seg.val = 2 ∧
    62 + 1 < symbolsHere (sending .payload false 62 2 0 true 1024) ∧
    (sending .payload false 63 2 0 true 1024).phase = .payload ∧ (sending .preamble false 15 2 0 true 1024).phase = .preamble ∧
    symbolsHere (sending .payload false 63 2 0 true 1024) ≤ 63 + 1 ∧
    symbolsHere (sending .preamble false 15 2 0 true 1024) ≤ 15 + 1 ∧
    (sending .postamble false 3 2 0 false 1024).phase = .postamble ∧
    symbolsHere (sending .postamble true 3 2 0 false 1024) ≤ 3 + 1 := by decide

theorem witness_GapAndDoneSteps :
    (sending .gap false 0 0 0 true 512).phase = .gap ∧ (sending .done true 0 0 0 true 512).phase = .done ∧
    readyT.phase = .idle := by decide

/-- No tick; a tick with two left, and with 8192 left; a tick with one left. -/
theorem witness_TicksCountTheSegmentDown :
    ((ticked (sending .gap false 0 0 2 true 512)).sample.rst = false ∧
      (ticked (sending .gap false 0 0 2 true 512)).phase ≠ .idle ∧
      (ticked (sending .gap false 0 0 2 true 512)).stuck = false ∧
      (ticked (sending .gap false 0 0 2 true 512)).sample.tickUs = true ∧
      1 < (ticked (sending .gap false 0 0 2 true 512)).tmr.toNat) ∧
    ((ticked (sending .gap false 0 0 8192 true 512)).sample.rst = false ∧
      (ticked (sending .gap false 0 0 8192 true 512)).phase ≠ .idle ∧
      (ticked (sending .gap false 0 0 8192 true 512)).stuck = false ∧
      (ticked (sending .gap false 0 0 8192 true 512)).sample.tickUs = true ∧
      1 < (ticked (sending .gap false 0 0 8192 true 512)).tmr.toNat) ∧
    ((ticked (sending .gap false 0 0 1 true 512)).sample.rst = false ∧
      (ticked (sending .gap false 0 0 1 true 512)).phase ≠ .idle ∧
      (ticked (sending .gap false 0 0 1 true 512)).stuck = false ∧
      (ticked (sending .gap false 0 0 1 true 512)).sample.tickUs = true ∧
      (ticked (sending .gap false 0 0 1 true 512)).tmr = 1#14) ∧
    (offered inFlight 0).sample.rst = false ∧ (offered inFlight 0).phase ≠ .idle ∧ (offered inFlight 0).stuck = false ∧
    (offered inFlight 0).sample.tickUs = false ∧ (offered inFlight 0).tmr ≠ 0#14 := by decide

theorem witness_IdleBlockStaysIdle :
    (ticked readyT).sample.rst = false ∧ (ticked readyT).phase = .idle ∧ (ticked readyT).tmr = 0#14 ∧
    (ticked readyT).encoderCall = none ∧ (ticked readyT).sample.cmdValid = false := by decide

theorem witness_OnlyAConfiguredSendLeavesIdle :
    (offered readyT 0x5000000141AC0000#64).phase = .idle ∧
    position (step (offered readyT 0x5000000141AC0000#64)) = some ⟨.preamble, false, 0, 1, 512, false⟩ := by decide

/-- A step that stays, one that follows an edge of the graph. -/
theorem witness_PhaseMovesOnlyOnTheGraph :
    (ticked inFlight).sample.rst = false ∧ answers (step (ticked inFlight)) = true ∧
    (ticked (sending .done true 0 0 1 true 512)).sample.rst = false ∧
    answers (step (ticked (sending .done true 0 0 1 true 512))) = true := by decide

theorem witness_BusyBlockKeepsItsConfiguration :
    (offered inFlight 0x10520BB100000000#64).sample.rst = false ∧ (offered inFlight 0x10520BB100000000#64).phase ≠ .idle ∧
    answers (step (offered inFlight 0x10520BB100000000#64)) = true := by decide

theorem witness_EveryStepKeepsTheInvariant :
    (Inv readyT ∧ answers (step readyT) = true) ∧ (Inv inFlight ∧ answers (step inFlight) = true) ∧
    Inv (offered readyT 0x5000000141AC0000#64) ∧ answers (step (offered readyT 0x5000000141AC0000#64)) = true :=
  ⟨⟨inv_readyT, by decide⟩, ⟨inv_inFlight, by decide⟩, inv_readyT_offered, by decide⟩

theorem witness_NoStateOfTheMachineStops : Inv readyT ∧ Inv readyTH ∧ Inv inFlight := ⟨inv_readyT, inv_readyTH, inv_inFlight⟩

/-- Each of the three impossible positions, at its boundary. -/
theorem witness_ImpossiblePositionIsStuck :
    (({ ticked inFlight with cfg := false } : State).sample.rst = false ∧
      ({ ticked inFlight with cfg := false } : State).phase ≠ .idle) ∧
    (8192 < (ticked (sending .gap false 0 0 8193 true 512)).tmr.toNat ∧
      (ticked (sending .gap false 0 0 8193 true 512)).phase ≠ .idle) ∧
    (symbolsHere (ticked (sending .payload false 64 0 1 true 512)) ≤ 64 ∧
      (ticked (sending .payload false 64 0 1 true 512)).bitcnt ≠ 0#7 ∧
      (ticked (sending .payload false 64 0 1 true 512)).sample.rst = false) := by decide

theorem witness_SendRunsToTheWholeTransmission :
    Inv (offered readyT 0x5000000141AC0000#64) ∧ (offered readyT 0x5000000141AC0000#64).phase = .idle ∧
    (offered readyT 0x5000000141AC0000#64).cfg = true ∧ (offered readyT 0x5000000141AC0000#64).sample.rst = false ∧
    (offered readyT 0x5000000141AC0000#64).sample.cmdValid = true ∧
    decodeCommand (offered readyT 0x5000000141AC0000#64).sample.cmdData = .send 0x00#8 0x41AC0000#32 true ∧
    ∀ x ∈ (offered readyT 0x5000000141AC0000#64).inputs.tail, x.rst = false ∧ x.tickUs = true :=
  ⟨inv_readyT_offered, by decide, by decide, by decide, by decide, by decide, by decide⟩

/-- An edge with a tick, an edge without one, the last tick of a send, and the edge that accepts one. -/
theorem witness_EveryTickBringsTheEndOneTickNearer :
    (Inv (ticked inFlight) ∧ (ticked inFlight).sample.rst = false ∧ (ticked inFlight).phase ≠ .idle ∧
      answers (step (ticked inFlight)) = true) ∧
    (Inv (offered inFlight 0) ∧ (offered inFlight 0).sample.rst = false ∧ (offered inFlight 0).sample.tickUs = false ∧
      answers (step (offered inFlight 0)) = true) ∧
    (Inv (ticked (sending .done true 0 0 1 true 512)) ∧
      position (step (ticked (sending .done true 0 0 1 true 512))) = some ⟨.idle, false, 0, 0, 0, false⟩) ∧
    Inv (offered readyT 0x5000000141AC0000#64) ∧ (offered readyT 0x5000000141AC0000#64).phase = .idle ∧
    position (step (offered readyT 0x5000000141AC0000#64)) = some ⟨.preamble, false, 0, 1, 512, false⟩ :=
  ⟨⟨⟨by decide, by decide, by decide, by decide, by decide, by decide, by decide, by decide, by decide, by decide, by decide⟩,
    by decide, by decide, by decide⟩,
   ⟨⟨by decide, by decide, by decide, by decide, by decide, by decide, by decide, by decide, by decide, by decide, by decide⟩,
    by decide, by decide, by decide⟩,
   ⟨⟨by decide, by decide, by decide, by decide, by decide, by decide, by decide, by decide, by decide, by decide, by decide⟩,
    by decide⟩,
   inv_readyT_offered, by decide, by decide⟩

theorem witness_FrameViewShowsEveryByte : 0 < 9 ∧ 8 < 9 := by decide

theorem witness_PayloadStartsWithTheTypeBits :
    (Inv readyT ∧ readyT.cfg = true ∧ readyT.hc = false) ∧ (Inv readyTH ∧ readyTH.cfg = true ∧ readyTH.hc = true) :=
  ⟨⟨inv_readyT, by decide, by decide⟩, inv_readyTH, by decide, by decide⟩

end Sys2Proof.Tests
end

section
/-! PROOFS, spec/00_scope.md R12 and spec/42_message_builder.md R140 to R143: the rounding to binary32 as a function of the value
alone, and what a temperature pattern says. Two facts carry the rest: `round` keeps every value with at most 24 significant bits
(`round_of_short`), and it is monotone (`round_mono`). -/
namespace Sys2Proof.Machine

open Sys2Proof.Safety

/-! ### The nearest integer, ties to the even one -/

/-- The nearest integer of a rational, a tie to the even one: the number of units in R12's formula. -/
def nearestEven (q : ℚ) : Int :=
  if 1 / 2 < q - ⌊q⌋ ∨ (q - ⌊q⌋ = 1 / 2 ∧ ⌊q⌋ % 2 = 1) then ⌊q⌋ + 1 else ⌊q⌋

theorem roundHalfEven_eq_nearestEven {n d : Nat} (hd : 0 < d) :
    (roundHalfEven n d : ℚ) = nearestEven ((n : ℚ) / d) := by
  rw [roundHalfEven_eq hd, nearestEven]
  split_ifs <;> push_cast <;> rfl

theorem nearestEven_intCast (k : Int) : nearestEven k = k := by
  norm_num [nearestEven]

theorem floor_le_nearestEven (q : ℚ) : ⌊q⌋ ≤ nearestEven q := by
  unfold nearestEven
  split <;> omega

theorem nearestEven_le_floor_add_one (q : ℚ) : nearestEven q ≤ ⌊q⌋ + 1 := by
  unfold nearestEven
  split <;> omega

theorem nearestEven_mono {a b : ℚ} (h : a ≤ b) : nearestEven a ≤ nearestEven b := by
  rcases (Int.floor_mono h).lt_or_eq with hlt | heq
  · calc nearestEven a ≤ ⌊a⌋ + 1 := nearestEven_le_floor_add_one a
      _ ≤ ⌊b⌋ := hlt
      _ ≤ nearestEven b := floor_le_nearestEven b
  · -- the same floor: what sends `a` up sends `b` up
    have hup : (1 / 2 < a - ⌊a⌋ ∨ (a - ⌊a⌋ = 1 / 2 ∧ ⌊a⌋ % 2 = 1)) →
        1 / 2 < b - ⌊b⌋ ∨ (b - ⌊b⌋ = 1 / 2 ∧ ⌊b⌋ % 2 = 1) := by
      rw [← heq]
      rintro (hgt | ⟨htie, hodd⟩)
      · exact .inl (by linarith)
      · rcases h.lt_or_eq with hab | rfl
        · exact .inl (by linarith)
        · exact .inr ⟨htie, hodd⟩
    by_cases ha : 1 / 2 < a - ⌊a⌋ ∨ (a - ⌊a⌋ = 1 / 2 ∧ ⌊a⌋ % 2 = 1)
    · rw [nearestEven, nearestEven, if_pos ha, if_pos (hup ha), heq]
    · rw [nearestEven, if_neg ha, heq]
      exact floor_le_nearestEven b

/-! ### `rnd_b32` as a function of the value -/

theorem Frac.num_pos_of_val_pos {x : Frac} (h : 0 < x.val) : 0 < x.num := by
  by_contra hn
  have hnum : (x.num : ℚ) ≤ 0 := by exact_mod_cast not_lt.1 hn
  exact absurd (div_nonpos_of_nonpos_of_nonneg hnum (Nat.cast_nonneg x.den)) (not_le.2 h)

/-- R12's formula for a positive value, at its exponent `e`. -/
theorem round_b32_val {x : Frac} (hx : 0 < x.den) {e : Int} (h1 : (2 : ℚ) ^ e ≤ x.val) (h2 : x.val < (2 : ℚ) ^ (e + 1)) :
    (round .b32 x).val =
      nearestEven (x.val / (2 : ℚ) ^ (max e (-126) - 23)) * (2 : ℚ) ^ (max e (-126) - 23) := by
  have hnum : 0 < x.num := Frac.num_pos_of_val_pos (lt_of_lt_of_le (by positivity) h1)
  have hval : x.val = (x.num.natAbs : ℚ) / x.den := by
    rw [Frac.val, Nat.cast_natAbs, abs_of_pos hnum]
  have hexp : unitExponent x.num.natAbs x.den = max e (-126) - 23 := by
    rw [unitExponent, binExponent_unique (by omega) hx (hval ▸ h1) (hval ▸ h2)]
  have hround : round .b32 x = roundB32Nat x.num.natAbs x.den := if_neg hnum.le.not_gt
  rw [hround, roundB32Nat_val _ (by omega), hexp, roundHalfEven_eq_nearestEven (by positivity), hval]
  congr 3
  rw [zpow_toNat (max e (-126) - 23)]
  push_cast
  field_simp

theorem round_b32_neg (x : Frac) : (round .b32 x.neg).val = -(round .b32 x).val := by
  change (roundB32 x.neg).val = -(roundB32 x).val
  unfold roundB32
  simp only [Frac.neg, Int.natAbs_neg, Int.neg_neg_iff_pos]
  rcases lt_trichotomy x.num 0 with h | h | h
  · rw [if_neg h.not_gt, if_pos h]
    exact (neg_eq_iff_eq_neg.2 (Frac.val_neg _)).symm
  · simp [h, roundB32Nat, Frac.val]
  · rw [if_pos h, if_neg h.not_gt]
    exact Frac.val_neg _

theorem round_b32_of_val_zero {x : Frac} (hx : 0 < x.den) (h : x.val = 0) : (round .b32 x).val = 0 := by
  have hnum : x.num = 0 := by simpa [Frac.val, hx.ne'] using h
  simp [round, roundB32, roundB32Nat, hnum, Frac.val]

/-! ### Values with few significant bits are kept -/

/-- `N * 2^j` is a whole number of its units, for `N` of at most 24 bits and `2^j` not below the smallest subnormal. -/
theorem round_b32_of_short_pos {x : Frac} (hx : 0 < x.den) {N j : Int} (hN : N < 2 ^ 24) (hj : -149 ≤ j)
    (hpos : 0 < x.val) (h : x.val = N * (2 : ℚ) ^ j) : (round .b32 x).val = x.val := by
  obtain ⟨e, hlo, hhi⟩ := exists_mem_Ico_zpow hpos (by norm_num : (1 : ℚ) < 2)
  have he : e < 24 + j := by
    rw [← zpow_lt_zpow_iff_right₀ (by norm_num : (1 : ℚ) < 2)]
    calc (2 : ℚ) ^ e ≤ N * (2 : ℚ) ^ j := h ▸ hlo
      _ < (2 : ℚ) ^ 24 * (2 : ℚ) ^ j := by gcongr; exact_mod_cast hN
      _ = (2 : ℚ) ^ (24 + j) := by rw [zpow_add₀ (by norm_num)]; norm_cast
  rw [round_b32_val hx hlo hhi]
  generalize hk : max e (-126) - 23 = k
  have hkj : k ≤ j := by omega
  have hunits : x.val / (2 : ℚ) ^ k = ((N * 2 ^ (j - k).toNat : Int) : ℚ) := by
    push_cast
    rw [h, mul_div_assoc, ← zpow_sub₀ (by norm_num), ← zpow_natCast, Int.toNat_of_nonneg (by omega)]
  rw [hunits, nearestEven_intCast, ← hunits, div_mul_cancel₀ _ (by positivity)]

/-- Both roundings keep a value with at most 24 significant bits, none below the smallest subnormal (R12). -/
theorem round_of_short (r : Config.Rounding) {x : Frac} (hx : 0 < x.den) {N j : Int} (hN : |N| < 2 ^ 24) (hj : -149 ≤ j)
    (h : x.val = N * (2 : ℚ) ^ j) : (round r x).val = x.val := by
  cases r with
  | exact => rfl
  | b32 =>
    obtain ⟨hNlo, hNhi⟩ := abs_lt.1 hN
    rcases lt_trichotomy x.val 0 with hneg | hzero | hpos
    · have hkept : (round .b32 x.neg).val = x.neg.val :=
        round_b32_of_short_pos (N := -N) hx (by omega) hj (by rw [Frac.val_neg]; linarith)
          (by rw [Frac.val_neg, h]; push_cast; ring)
      rw [round_b32_neg, Frac.val_neg] at hkept
      exact neg_inj.1 hkept
    · rw [round_b32_of_val_zero hx hzero, hzero]
    · exact round_b32_of_short_pos hx hNhi hj hpos h

/-! ### Monotonicity -/

/-- Below the next power of two, and not below the smallest normal one, a value rounds to at most that power. -/
theorem round_b32_le_two_zpow {x : Frac} (hx : 0 < x.den) {e : Int} (h1 : (2 : ℚ) ^ e ≤ x.val)
    (h2 : x.val < (2 : ℚ) ^ (e + 1)) : (round .b32 x).val ≤ (2 : ℚ) ^ (max e (-126) + 1) := by
  rw [round_b32_val hx h1 h2]
  generalize hk : max e (-126) - 23 = k
  have hpow : (2 : ℚ) ^ (max e (-126) + 1) = ((2 ^ 24 : Int) : ℚ) * (2 : ℚ) ^ k := by
    rw [show max e (-126) + 1 = 24 + k by omega, zpow_add₀ (by norm_num)]
    norm_cast
  have hle : x.val / (2 : ℚ) ^ k ≤ ((2 ^ 24 : Int) : ℚ) := by
    rw [div_le_iff₀ (by positivity), ← hpow]
    exact h2.le.trans (zpow_le_zpow_right₀ (by norm_num) (by omega))
  rw [hpow]
  gcongr
  exact (nearestEven_mono hle).trans_eq (nearestEven_intCast _)

/-- A normal value rounds to no less than the power of two below it. -/
theorem two_zpow_le_round_b32 {x : Frac} (hx : 0 < x.den) {e : Int} (he : -126 ≤ e) (h1 : (2 : ℚ) ^ e ≤ x.val)
    (h2 : x.val < (2 : ℚ) ^ (e + 1)) : (2 : ℚ) ^ e ≤ (round .b32 x).val := by
  rw [round_b32_val hx h1 h2, max_eq_left he]
  have hpow : (2 : ℚ) ^ e = ((2 ^ 23 : Int) : ℚ) * (2 : ℚ) ^ (e - 23) := by
    rw [show (2 : ℚ) ^ e = (2 : ℚ) ^ (23 + (e - 23)) by congr 1; ring, zpow_add₀ (by norm_num)]
    norm_cast
  have hle : ((2 ^ 23 : Int) : ℚ) ≤ x.val / (2 : ℚ) ^ (e - 23) := by
    rw [le_div_iff₀ (by positivity), ← hpow]
    exact h1
  calc (2 : ℚ) ^ e = ((2 ^ 23 : Int) : ℚ) * (2 : ℚ) ^ (e - 23) := hpow
    _ ≤ _ := by
      gcongr
      exact (nearestEven_intCast _).symm.trans_le (nearestEven_mono hle)

theorem round_nonneg (r : Config.Rounding) {x : Frac} (hx : 0 < x.den) (h : 0 ≤ x.val) : 0 ≤ (round r x).val := by
  cases r with
  | exact => exact h
  | b32 =>
    rcases h.eq_or_lt with hzero | hpos
    · exact (round_b32_of_val_zero hx hzero.symm).ge
    · obtain ⟨e, hlo, hhi⟩ := exists_mem_Ico_zpow hpos (by norm_num : (1 : ℚ) < 2)
      rw [round_b32_val hx hlo hhi]
      have hunits : (0 : Int) ≤ nearestEven (x.val / (2 : ℚ) ^ (max e (-126) - 23)) :=
        (Int.floor_nonneg.2 (by positivity)).trans (floor_le_nearestEven _)
      positivity

/-- Two positive values either share their unit, or a power of two stands between their roundings. -/
theorem round_b32_mono_pos {x y : Frac} (hx : 0 < x.den) (hy : 0 < y.den) (hpos : 0 < x.val) (h : x.val ≤ y.val) :
    (round .b32 x).val ≤ (round .b32 y).val := by
  obtain ⟨ex, hxlo, hxhi⟩ := exists_mem_Ico_zpow hpos (by norm_num : (1 : ℚ) < 2)
  obtain ⟨ey, hylo, hyhi⟩ := exists_mem_Ico_zpow (hpos.trans_le h) (by norm_num : (1 : ℚ) < 2)
  have hexy : ex < ey + 1 := (zpow_lt_zpow_iff_right₀ (by norm_num : (1 : ℚ) < 2)).1 (hxlo.trans_lt (h.trans_lt hyhi))
  rcases (show max ex (-126) ≤ max ey (-126) by omega).eq_or_lt with hunit | hunit
  · rw [round_b32_val hx hxlo hxhi, round_b32_val hy hylo hyhi, hunit]
    gcongr
    exact nearestEven_mono (by gcongr)
  · calc (round .b32 x).val ≤ (2 : ℚ) ^ (max ex (-126) + 1) := round_b32_le_two_zpow hx hxlo hxhi
      _ ≤ (2 : ℚ) ^ ey := zpow_le_zpow_right₀ (by norm_num) (by omega)
      _ ≤ (round .b32 y).val := two_zpow_le_round_b32 hy (by omega) hylo hyhi

/-- Both roundings are monotone (R12). -/
theorem round_mono (r : Config.Rounding) {x y : Frac} (hx : 0 < x.den) (hy : 0 < y.den) (h : x.val ≤ y.val) :
    (round r x).val ≤ (round r y).val := by
  cases r with
  | exact => exact h
  | b32 =>
    rcases lt_or_ge 0 x.val with hxpos | hxneg
    · exact round_b32_mono_pos hx hy hxpos h
    rcases lt_or_ge y.val 0 with hyneg | hypos
    · -- both negative: the mirrored pair is positive and in the other order
      have hmirror := round_b32_mono_pos (x := y.neg) (y := x.neg) hy hx
        (by rw [Frac.val_neg]; linarith) (by simp only [Frac.val_neg]; linarith)
      simp only [round_b32_neg] at hmirror
      linarith
    · have hxr : 0 ≤ (round .b32 x.neg).val := round_nonneg .b32 hx (by rw [Frac.val_neg]; linarith)
      rw [round_b32_neg] at hxr
      linarith [round_nonneg .b32 hy hypos]

/-- The rounding depends on the value alone, not on the fraction that stands for it. -/
theorem round_val_congr (r : Config.Rounding) {x y : Frac} (hx : 0 < x.den) (hy : 0 < y.den) (h : x.val = y.val) :
    (round r x).val = (round r y).val :=
  le_antisymm (round_mono r hx hy h.le) (round_mono r hy hx h.ge)

/-! ### The value of a temperature pattern -/

/-- The significand of a pattern, an integer of at most 24 bits: `f`, with the hidden bit where the value is normal (R12). -/
def significand (t : BitVec 32) : Nat := if expField t = 0 then fracField t else 2 ^ 23 + fracField t

/-- The exponent of a pattern's last significand bit (R12). -/
def lastPlace (t : BitVec 32) : Int := if expField t = 0 then -149 else (expField t : Int) - 150

theorem patternMagnitude_eq (t : BitVec 32) : patternMagnitude t = significand t * (2 : ℚ) ^ lastPlace t := by
  unfold patternMagnitude significand lastPlace
  split_ifs <;> push_cast <;> rfl

theorem fracField_lt (t : BitVec 32) : fracField t < 2 ^ 23 := Nat.mod_lt _ (by norm_num)

theorem expField_lt (t : BitVec 32) : expField t < 256 := Nat.mod_lt _ (by norm_num)

theorem significand_lt (t : BitVec 32) : significand t < 2 ^ 24 := by
  have := fracField_lt t
  unfold significand
  split <;> omega

theorem le_lastPlace (t : BitVec 32) : -149 ≤ lastPlace t := by
  unfold lastPlace
  split <;> omega

theorem significand_eq_zero_iff (t : BitVec 32) : significand t = 0 ↔ expField t = 0 ∧ fracField t = 0 := by
  unfold significand
  split <;> simp_all

/-- The fraction of a pattern with an exponent below 255, its sign aside. -/
def magnitudeFrac (t : BitVec 32) : Frac := ⟨significand t * 2 ^ (lastPlace t).toNat, 2 ^ (-lastPlace t).toNat⟩

theorem magnitudeFrac_val (t : BitVec 32) : (magnitudeFrac t).val = patternMagnitude t := by
  rw [patternMagnitude_eq, zpow_toNat]
  simp only [Frac.val, magnitudeFrac]
  push_cast
  ring

/-- The fraction that a pattern with an exponent below 255 stands for. -/
def signedMagnitude (t : BitVec 32) : Frac := if t.getLsbD 31 then (magnitudeFrac t).neg else magnitudeFrac t

theorem signedMagnitude_den_pos (t : BitVec 32) : 0 < (signedMagnitude t).den := by
  unfold signedMagnitude
  split <;> exact Nat.two_pow_pos _

theorem signedMagnitude_val (t : BitVec 32) :
    (signedMagnitude t).val = if t.getLsbD 31 then -patternMagnitude t else patternMagnitude t := by
  unfold signedMagnitude
  split
  · rw [Frac.val_neg, magnitudeFrac_val]
  · exact magnitudeFrac_val t

/-- What a temperature pattern stands for, by its exponent and fraction fields and its sign (R12). -/
theorem f32val_cases (t : BitVec 32) :
    (expField t = 255 ∧ fracField t ≠ 0 ∧ f32val t = .nan) ∨
    (expField t = 255 ∧ fracField t = 0 ∧ f32val t = .inf (t.getLsbD 31)) ∨
    (expField t < 255 ∧ f32val t = .finite (signedMagnitude t)) := by
  have he := expField_lt t
  rw [f32val_eq]
  by_cases h255 : expField t = 255
  · by_cases hf : fracField t = 0 <;> simp [h255, hf]
  · refine .inr (.inr ⟨by omega, ?_⟩)
    rw [if_neg h255]
    by_cases h0 : expField t = 0
    · have hfrac : magnitudeFrac t = ⟨fracField t, 2 ^ 149⟩ := by
        simp [magnitudeFrac, significand, lastPlace, h0]
      rw [if_pos h0, signedMagnitude, hfrac]
      cases t.getLsbD 31 <;> rfl
    · have hfrac : magnitudeFrac t =
          ⟨((2 ^ 23 + fracField t) * 2 ^ (expField t - 150) : Nat), 2 ^ (150 - expField t)⟩ := by
        have hup : ((expField t : Int) - 150).toNat = expField t - 150 := by omega
        have hdown : (-((expField t : Int) - 150)).toNat = 150 - expField t := by omega
        simp only [magnitudeFrac, significand, lastPlace, if_neg h0, hup, hdown]
        push_cast
        rfl
      rw [if_neg h0, signedMagnitude, hfrac]
      cases t.getLsbD 31 <;> rfl

theorem f32val_eq_finite {t : BitVec 32} {v : Frac} (h : f32val t = .finite v) :
    expField t < 255 ∧ v = signedMagnitude t := by
  rcases f32val_cases t with ⟨-, -, hv⟩ | ⟨-, -, hv⟩ | ⟨he, hv⟩
  · cases hv.symm.trans h
  · cases hv.symm.trans h
  · exact ⟨he, F32.finite.inj (h.symm.trans hv)⟩

/-- A binary32 value has at most 24 significant bits (R12). -/
theorem exists_short_of_finite {t : BitVec 32} {v : Frac} (h : f32val t = .finite v) :
    ∃ N : Int, |N| < 2 ^ 24 ∧ v.val = N * (2 : ℚ) ^ lastPlace t := by
  obtain ⟨-, rfl⟩ := f32val_eq_finite h
  have hsig : |(significand t : Int)| < 2 ^ 24 := by
    rw [Nat.abs_cast]
    exact_mod_cast significand_lt t
  rw [signedMagnitude_val, patternMagnitude_eq]
  split
  · exact ⟨-significand t, by rwa [abs_neg], by push_cast; ring⟩
  · exact ⟨significand t, hsig, by push_cast; rfl⟩

/-! ### Sign and magnitude of a temperature pattern -/

/-- A pattern counts as negative where its sign bit is set, unless it is a NaN or `-0` (R140). -/
theorem f32val_isNeg_iff (t : BitVec 32) :
    (f32val t).isNeg = true ↔
      t.getLsbD 31 = true ∧ ¬(expField t = 255 ∧ fracField t ≠ 0) ∧ ¬(expField t = 0 ∧ fracField t = 0) := by
  rcases f32val_cases t with ⟨he, hf, hv⟩ | ⟨he, hf, hv⟩ | ⟨he, hv⟩
  · simp [hv, F32.isNeg, he, hf]
  · simp [hv, F32.isNeg, he, hf]
  · rw [hv, ← significand_eq_zero_iff, signedMagnitude]
    cases t.getLsbD 31 with
    | false => simp [F32.isNeg, magnitudeFrac]
    | true => simp [F32.isNeg, Frac.neg, magnitudeFrac, he.ne, Nat.pos_iff_ne_zero]

/-- The bound `2^20` on the magnitude, said of the exponent field. -/
theorem magnitudeFrac_lt_bound_iff (t : BitVec 32) :
    (magnitudeFrac t).num.natAbs < Config.tempBound * (magnitudeFrac t).den ↔ expField t < 147 := by
  have hsig := significand_lt t
  have hnum : (magnitudeFrac t).num.natAbs = significand t * 2 ^ (lastPlace t).toNat := by
    simp [magnitudeFrac, Int.natAbs_mul, Int.natAbs_pow]
  rw [hnum]
  change significand t * 2 ^ (lastPlace t).toNat < 2 ^ 20 * 2 ^ (-lastPlace t).toNat ↔ _
  have hplace : lastPlace t = if expField t = 0 then -149 else (expField t : Int) - 150 := rfl
  by_cases h : expField t < 147
  · have hpow : 2 ^ 4 ≤ 2 ^ (-lastPlace t).toNat :=
      Nat.pow_le_pow_right (by norm_num) (by split at hplace <;> omega)
    have hzero : (lastPlace t).toNat = 0 := by split at hplace <;> omega
    simp only [h, iff_true, hzero, pow_zero, mul_one]
    omega
  · have hpow : 2 ^ (-lastPlace t).toNat ≤ 2 ^ 3 :=
      Nat.pow_le_pow_right (by norm_num) (by split at hplace <;> omega)
    have hnormal : 2 ^ 23 ≤ significand t := by
      rw [significand, if_neg (by omega)]
      omega
    have hle : significand t ≤ significand t * 2 ^ (lastPlace t).toNat := Nat.le_mul_of_pos_right _ (by positivity)
    simp only [h, iff_false]
    omega

theorem magnitude_finite_neg (v : Frac) : (F32.finite v.neg).magnitude = (F32.finite v).magnitude := by
  simp only [F32.magnitude, Frac.neg, Int.natAbs_neg]

/-- The magnitude that the digits are taken of: the value without its sign, up to the exponent field 146 (R140, R143). -/
theorem f32val_magnitude (t : BitVec 32) :
    (f32val t).magnitude = if expField t < 147 then some (magnitudeFrac t) else none := by
  rcases f32val_cases t with ⟨he, -, hv⟩ | ⟨he, -, hv⟩ | ⟨he, hv⟩
  · simp [hv, F32.magnitude, he]
  · simp [hv, F32.magnitude, he]
  · have hunsigned : (f32val t).magnitude = (F32.finite (magnitudeFrac t)).magnitude := by
      rw [hv, signedMagnitude]
      split
      · exact magnitude_finite_neg _
      · rfl
    have hnum : (((magnitudeFrac t).num.natAbs : Nat) : Int) = (magnitudeFrac t).num :=
      Int.natAbs_of_nonneg (by simp only [magnitudeFrac]; positivity)
    rw [hunsigned]
    simp only [F32.magnitude, magnitudeFrac_lt_bound_iff, hnum]

theorem magnitude_eq_some_iff {t : BitVec 32} {m : Frac} :
    (f32val t).magnitude = some m ↔ expField t < 147 ∧ m = magnitudeFrac t := by
  rw [f32val_magnitude]
  split <;> simp_all [eq_comm]

theorem tempInt_eq_floor {m : Frac} (h : 0 ≤ m.val) : (tempInt m : Int) = ⌊m.val⌋ := by
  rw [tempInt, Frac.floor_eq, Int.toNat_of_nonneg (Int.floor_nonneg.2 h)]

/-! ### The tenths digit -/

theorem Frac.val_fraction {m : Frac} (hm : 0 < m.den) (h : 0 ≤ m.val) :
    (m.subInt (tempInt m)).val = m.val - ⌊m.val⌋ := by
  rw [Frac.val_subInt hm, tempInt_eq_floor h]

/-- Below the bound the last place is under the point, so taking off the whole part leaves no more bits than there were. -/
theorem exists_short_fraction {t : BitVec 32} (h : expField t < 147) :
    ∃ N : Int, |N| < 2 ^ 24 ∧ patternMagnitude t - ⌊patternMagnitude t⌋ = N * (2 : ℚ) ^ lastPlace t := by
  have hplace : lastPlace t ≤ 0 := by
    unfold lastPlace
    split <;> omega
  have hcancel : (2 : ℚ) ^ (-lastPlace t).toNat * (2 : ℚ) ^ lastPlace t = 1 := by
    rw [← zpow_natCast, Int.toNat_of_nonneg (by omega), ← zpow_add₀ (by norm_num), neg_add_cancel, zpow_zero]
  have hwhole : 0 ≤ ⌊patternMagnitude t⌋ := Int.floor_nonneg.2 (by rw [patternMagnitude_eq]; positivity)
  generalize hn : ⌊patternMagnitude t⌋ = n at hwhole ⊢
  have hval : patternMagnitude t - n =
      ((significand t - n * 2 ^ (-lastPlace t).toNat : Int) : ℚ) * (2 : ℚ) ^ lastPlace t := by
    rw [patternMagnitude_eq]
    push_cast
    linear_combination (n : ℚ) * hcancel
  refine ⟨significand t - n * 2 ^ (-lastPlace t).toNat, ?_, hval⟩
  have hnonneg : 0 ≤ (significand t : Int) - n * 2 ^ (-lastPlace t).toNat := by
    have hfract : 0 ≤ patternMagnitude t - n := by
      rw [sub_nonneg, ← hn]
      exact Int.floor_le _
    exact_mod_cast nonneg_of_mul_nonneg_left (hval ▸ hfract) (by positivity)
  have htaken : 0 ≤ n * 2 ^ (-lastPlace t).toNat := by positivity
  have hsig := significand_lt t
  rw [abs_of_nonneg hnonneg]
  omega

/-- The fractional part of a magnitude is kept by both roundings. -/
theorem round_fraction (r : Config.Rounding) {t : BitVec 32} {m : Frac} (h : (f32val t).magnitude = some m) :
    (round r (m.subInt (tempInt m))).val = (m.subInt (tempInt m)).val := by
  obtain ⟨hden, hnonneg, -⟩ := magnitude_spec h
  obtain ⟨hexp, rfl⟩ := magnitude_eq_some_iff.1 h
  obtain ⟨N, hN, hval⟩ := exists_short_fraction hexp
  exact round_of_short r hden hN (le_lastPlace t) (by rw [Frac.val_fraction hden hnonneg, magnitudeFrac_val, hval])

/-- The tenths digit is the exact product, rounded by `NUM.rnd` and then to the nearest integer, a tie up (R140). -/
theorem tenthsDigit_eq_floor (r : Config.Rounding) {t : BitVec 32} {m : Frac} (h : (f32val t).magnitude = some m) :
    (tenthsDigit r m : Int) = ⌊(round r ((m.subInt (tempInt m)).mulInt 10)).val + 1 / 2⌋ := by
  obtain ⟨hden, hnonneg, -⟩ := magnitude_spec h
  have hkept : (round r ((round r (m.subInt (tempInt m))).mulInt 10)).val =
      (round r ((m.subInt (tempInt m)).mulInt 10)).val :=
    round_val_congr r (round_den_pos r hden) hden (by rw [Frac.val_mulInt, Frac.val_mulInt, round_fraction r h])
  have hpos : 0 < (round r ((round r (m.subInt (tempInt m))).mulInt 10)).den := round_den_pos r (round_den_pos r hden)
  have hproduct : 0 ≤ ((m.subInt (tempInt m)).mulInt 10).val := by
    rw [Frac.val_mulInt, Frac.val_fraction hden hnonneg]
    exact mul_nonneg (sub_nonneg.2 (Int.floor_le _)) (by norm_num)
  have hrounded : 0 ≤ (round r ((m.subInt (tempInt m)).mulInt 10)).val := round_nonneg r hden hproduct
  rw [tenthsDigit, Frac.rha_eq hpos, hkept, Int.toNat_of_nonneg (Int.floor_nonneg.2 (by positivity))]

theorem Frac.val_over_two (N : Int) : (⟨N, 2⟩ : Frac).val = (N : ℚ) / 2 := by
  norm_num [Frac.val]

theorem round_over_two (r : Config.Rounding) {N : Int} (hN : |N| < 2 ^ 24) : (round r ⟨N, 2⟩).val = (N : ℚ) / 2 := by
  rw [round_of_short r (j := -1) Nat.two_pos hN (by norm_num) (by rw [Frac.val_over_two, zpow_neg_one, div_eq_mul_inv]),
    Frac.val_over_two]

/-- `NUM.rnd` keeps the halves, so by monotonicity a value that is nearest to `k` stays so, unless it rounds to the tie above. -/
theorem floor_round_add_half (r : Config.Rounding) {p : Frac} (hp : 0 < p.den) {k : Int} (hk : |k| < 2 ^ 22)
    (hlo : (k : ℚ) - 1 / 2 ≤ p.val) (hhi : p.val < (k : ℚ) + 1 / 2) :
    ⌊(round r p).val + 1 / 2⌋ = if (round r p).val = (k : ℚ) + 1 / 2 then k + 1 else k := by
  obtain ⟨hklo, hkhi⟩ := abs_lt.1 hk
  have hbelow := round_mono r (x := ⟨2 * k - 1, 2⟩) Nat.two_pos hp (by rw [Frac.val_over_two]; push_cast; linarith)
  have habove := round_mono r (y := ⟨2 * k + 1, 2⟩) hp Nat.two_pos (by rw [Frac.val_over_two]; push_cast; linarith)
  rw [round_over_two r (abs_lt.2 ⟨by omega, by omega⟩)] at hbelow habove
  push_cast at hbelow habove
  split
  · next htie =>
    rw [htie, Int.floor_eq_iff]
    push_cast
    constructor <;> linarith
  · next htie =>
    have hlt : (round r p).val < (k : ℚ) + 1 / 2 := lt_of_le_of_ne (by linarith) htie
    rw [Int.floor_eq_iff]
    constructor <;> linarith

/-! ### The obligations -/

/-- Settles O51. -/
theorem roundingFollowsItsFormula : Obligations.RoundingFollowsItsFormula := by
  intro x hx
  refine ⟨rfl, round_b32_of_val_zero hx, round_b32_neg x, fun e h1 h2 => ?_⟩
  simp only [round_b32_val hx h1 h2, nearestEven]
  split_ifs
  · push_cast
    rfl
  · rfl

/-- Settles O52: a binary32 value has at most 24 significant bits. -/
theorem roundingKeepsBinary32ValuesAndOrder : Obligations.RoundingKeepsBinary32ValuesAndOrder := by
  refine fun r => ⟨fun x v t hx hv hxv => ?_, fun x y hx hy h => round_mono r hx hy h⟩
  obtain ⟨N, hN, hval⟩ := exists_short_of_finite hv
  exact round_of_short r hx hN (le_lastPlace t) (hxv.trans hval)

/-- Settles O50. -/
theorem temperaturePatternHasItsValue : Obligations.TemperaturePatternHasItsValue := by
  intro t
  refine ⟨?_, fun s => ?_, fun v hv => ?_, f32val_isNeg_iff t, ?_, fun m hm => ?_⟩
  · rcases f32val_cases t with ⟨he, hf, hv⟩ | ⟨he, hf, hv⟩ | ⟨he, hv⟩
    · simp [hv, he, hf]
    · simp [hv, hf]
    · simp [hv, he.ne]
  · rcases f32val_cases t with ⟨he, hf, hv⟩ | ⟨he, hf, hv⟩ | ⟨he, hv⟩
    · simp [hv, hf]
    · simp [hv, he, hf]
    · simp [hv, he.ne]
  · obtain ⟨he, rfl⟩ := f32val_eq_finite hv
    exact ⟨he, signedMagnitude_den_pos t, signedMagnitude_val t⟩
  · rw [f32val_magnitude]
    simp
  · obtain ⟨-, hnonneg, -⟩ := magnitude_spec hm
    obtain ⟨-, rfl⟩ := magnitude_eq_some_iff.1 hm
    exact ⟨magnitudeFrac_val t, tempInt_eq_floor hnonneg⟩

/-- Settles O49: the fractional part is exact under both roundings, so they differ in the rounding of the product only. -/
theorem tenthsDigitIsTheRoundedFraction : Obligations.TenthsDigitIsTheRoundedFraction := by
  intro t m hm p k
  obtain ⟨hden, hnonneg, -⟩ := magnitude_spec hm
  have hp : p.val = 10 * (m.val - (⌊m.val⌋ : ℚ)) := by
    rw [Frac.val_mulInt, Frac.val_fraction hden hnonneg]
    push_cast
    ring
  have hk : (k : Int) = ⌊p.val + 1 / 2⌋ := tenthsDigit_eq_floor .exact hm
  obtain ⟨hklo, hkhi⟩ := Int.floor_eq_iff.1 hk.symm
  have hsmall : |(k : Int)| < 2 ^ 22 := by
    have hp10 : p.val < 10 := by linarith [Int.lt_floor_add_one m.val]
    have : (k : ℚ) < 11 := by push_cast at hklo; linarith
    have : k < 11 := by exact_mod_cast this
    rw [abs_of_nonneg (by positivity)]
    omega
  push_cast at hklo hkhi
  have hhalf : p.val < (k : ℚ) + 1 / 2 := by linarith
  refine ⟨hp, hp ▸ hk, hhalf, ?_⟩
  have hb32 := (tenthsDigit_eq_floor .b32 hm).trans
    (floor_round_add_half .b32 (p := p) hden hsmall (by push_cast; linarith) (by push_cast; exact hhalf))
  push_cast at hb32
  split_ifs at hb32 ⊢ <;> exact_mod_cast hb32

end Sys2Proof.Machine
end

section
/-! PROOFS, spec/10_state.md: the state after reset, the status ports, and what every edge keeps. Within an edge the timer may have
expired with the sequencer's step still due, so the invariant is carried through the parts of an edge in the form `MidEdge`
(`Inv` without its clause `waiting`): the tick and the command keep `MidEdge`, and settling the sequencer restores `Inv`. -/
namespace Sys2Proof.Machine

/-! ### The status bits and the stuck positions -/

theorem State.busy_iff (s : State) : s.busy = true ↔ s.phase ≠ .idle := by simp [State.busy]

theorem State.cmdReady_iff (s : State) : s.cmdReady = true ↔ s.phase = .idle ∧ s.sample.rst = false := by
  simp [State.cmdReady, State.busy]

theorem State.bitcntInRange_iff (s : State) :
    s.bitcntInRange = true ↔ s.bitcnt.toNat < phaseSymbols s.phase s.hc ∨ s.bitcnt = 0#7 := by
  simp [State.bitcntInRange]

theorem State.stuck_iff (s : State) :
    s.stuck = true ↔ s.phase ≠ .idle ∧ (s.cfg = false ∨ Config.gapUs < s.tmr.toNat ∨
      (phaseSymbols s.phase s.hc ≤ s.bitcnt.toNat ∧ s.bitcnt ≠ 0#7)) := by
  have hrange : s.bitcntInRange = false ↔ phaseSymbols s.phase s.hc ≤ s.bitcnt.toNat ∧ s.bitcnt ≠ 0#7 := by
    rw [← Bool.not_eq_true, State.bitcntInRange_iff, not_or, not_lt]
  simp only [State.stuck, Bool.and_eq_true, State.busy_iff, Bool.not_eq_true', Bool.and_eq_false_iff, hrange,
    decide_eq_false_iff_not, not_le]
  tauto

/-! ### Reset -/

/-- After a reset edge the trace ends low (spec/70_reset_and_hazards.md R232; assumption 6). -/
theorem State.levelAfter_resetTrace {s : State} (h : levelAfter false s.trace = s.tx) :
    levelAfter false s.resetTrace = false := by
  unfold State.resetTrace
  split
  · rw [levelAfter_append]; rfl
  · split
    · rw [levelAfter_append]; rfl
    · simpa [h] using ‹¬ s.tx = true›

theorem State.reset_allRegistersZero : Safety.AllRegistersZero State.reset :=
  ⟨Memory.read_empty, rfl, rfl, rfl, rfl, rfl, rfl, rfl, rfl, rfl⟩

theorem State.resetEdge_allRegistersZero (s : State) : Safety.AllRegistersZero s.resetEdge :=
  State.reset_allRegistersZero

/-! ### The tick -/

theorem State.countTick_tmr_le (s : State) : s.countTick.tmr.toNat ≤ s.tmr.toNat := by
  rw [State.countTick_tmr]
  split
  · bv_omega
  · exact le_rfl

/-! ### The symbol step -/

theorem levelAfter_segEvents (l b : Bool) (k : Fin 3) : levelAfter l (segEvents b k) = segLevel b k := by
  rw [segEvents, ← List.singleton_append, levelAfter_append, levelAfter_levelEvent, levelAfter_wait]

/-- Where a symbol step leaves the sequencer: never in `IDLE`, within the phase's symbols, and in `GAP` or `DONE` only at the start
of the position and in the copy that the phase belongs to (spec/43_tx_sequencer.md R174, R175). -/
theorem State.symbolStep_position (b : Bool) {s : State}
    (hp : s.phase = .preamble ∨ s.phase = .payload ∨ s.phase = .postamble) (hr : s.bitcntInRange = true) :
    (s.symbolStep b).phase ≠ .idle ∧ (s.symbolStep b).bitcntInRange = true ∧
      ((s.symbolStep b).phase = .gap → s.rep = false ∧ (s.symbolStep b).seg = 0) ∧
      ((s.symbolStep b).phase = .done → s.rep = true ∧ (s.symbolStep b).seg = 0) := by
  have hne : s.phase ≠ .idle ∧ s.phase ≠ .gap ∧ s.phase ≠ .done := by rcases hp with h | h | h <;> simp [h]
  obtain ⟨hidle, hgap, hdone⟩ := hne
  rw [State.bitcntInRange_iff] at hr ⊢
  rcases State.symbolStep_cases b s with ⟨-, -, hb, hph⟩ | ⟨-, hlt, -, hb, hph⟩ | ⟨-, -, hseg, hb, hph⟩
  · rw [hph, hb, State.symbolStep_hc]
    exact ⟨hidle, hr, (absurd · hgap), (absurd · hdone)⟩
  · rw [hph, hb, State.symbolStep_hc, State.bitcnt_succ_toNat s hlt]
    exact ⟨hidle, .inl hlt, (absurd · hgap), (absurd · hdone)⟩
  · rw [hph, hb, hseg]
    refine ⟨?_, .inr rfl, ?_, ?_⟩ <;> rcases hp with h | h | h <;> cases hrep : s.rep <;> simp [h, nextPhase]

end Sys2Proof.Machine

namespace Sys2Proof.Safety

open Sys2Proof.Machine

/-! ### The frame: canonical form and type bytes -/

/-- The clauses `mem_wf` and `typed` of `Inv`, as a property of the registers they read. -/
def TypedFrame (cfg hc : Bool) (m : Memory) : Prop :=
  m.wf ∧ (cfg = true → m.read 0 = (typeBytes hc).1 ∧ m.read 1 = (typeBytes hc).2)

theorem TypedFrame.of_reads {cfg hc : Bool} {m n : Memory} (h : TypedFrame cfg hc m) (hwf : n.wf) (h0 : n.read 0 = m.read 0)
    (h1 : n.read 1 = m.read 1) : TypedFrame cfg hc n :=
  ⟨hwf, by rw [h0, h1]; exact h.2⟩

theorem typedFrame_setType (cfg hc : Bool) {m : Memory} (h : m.wf) : TypedFrame cfg hc (setType (typeBytes hc) m) :=
  ⟨setType_wf _ h, fun _ => by simp⟩

theorem TypedFrame.setChannel {cfg hc : Bool} {m : Memory} (h : TypedFrame cfg hc m) (c : Byte) :
    TypedFrame cfg hc (setChannel c m) :=
  h.of_reads (setChannel_wf c h.1) (by simp) (by simp)

theorem TypedFrame.setIdent {cfg hc : Bool} {m : Memory} (h : TypedFrame cfg hc m) (d : Byte) :
    TypedFrame cfg hc (setIdent d m) :=
  h.of_reads (setIdent_wf d h.1) (by simp) (by simp)

theorem TypedFrame.updateFrame {cfg hc : Bool} {m : Memory} (h : TypedFrame cfg hc m) (r : Config.Rounding) (fD : Byte)
    (fT : Nibble) (hum : Byte) (temp : BitVec 32) (bok : Bool) : TypedFrame cfg hc (updateFrame r fD fT hc hum temp bok m) :=
  h.of_reads (updateFrame_wf r fD fT hc hum temp bok h.1) (read_updateFrame_frame r fD fT hc hum temp bok m 0 (by omega))
    (read_updateFrame_frame r fD fT hc hum temp bok m 1 (by omega))

/-- What a host command can do (spec/44_commands.md R191 to R198): a SEND in a configured block enters a transmission; every other
command writes `F`, `HC`, `CFG` and `PINSEL` at most, and keeps the type bytes those of the variant. -/
theorem exec_decodeCommand_cases {w : CommandWord} {s t : State} (h : exec (decodeCommand w) s = .next t) :
    (∃ m hc cfg pin, t = { s with mem := m, hc := hc, cfg := cfg, pinsel := pin } ∧
      (TypedFrame s.cfg s.hc s.mem → TypedFrame cfg hc m)) ∨
    (∃ hum temp bok, s.cfg = true ∧ t = (s.update hum temp bok).enter) := by
  unfold decodeCommand at h
  split at h
  case h_2 => -- CONFIGURE
    cases h; exact .inl ⟨_, _, _, _, rfl, fun hf => ((typedFrame_setType _ _ hf.1).setChannel _).setIdent _⟩
  case h_4 => -- SET_HC
    cases h; exact .inl ⟨_, _, _, _, rfl, fun hf => typedFrame_setType _ _ hf.1⟩
  case h_5 => -- SET_IDCH
    cases h; exact .inl ⟨_, _, _, _, rfl, fun hf => (hf.setIdent _).setChannel _⟩
  case h_6 => -- SEND
    change execSend _ _ _ s = .next t at h
    unfold execSend at h
    split at h
    · cases h; exact .inr ⟨_, _, _, ‹_›, rfl⟩
    · cases h; exact .inl ⟨_, _, _, _, rfl, id⟩
  -- NOP, SET_PIN and the reserved opcodes leave the frame, HC and CFG as they are
  all_goals cases h; exact .inl ⟨_, _, _, _, rfl, id⟩

/-! ### The invariant within an edge -/

/-- `Inv` without its clause `waiting`: what holds of a state of the machine within an edge, where the timer may have expired with
the sequencer's step still due (spec/60_exceptions.md R217). -/
structure MidEdge (s : State) : Prop where
  frame : TypedFrame s.cfg s.hc s.mem
  idle : s.phase = .idle → s.tx = false ∧ s.tmr = 0#14 ∧ s.rep = false ∧ s.bitcnt = 0#7 ∧ s.seg = 0
  bitcnt_range : s.bitcntInRange = true
  tmr_range : s.tmr.toNat ≤ Config.gapUs
  configured : s.phase ≠ .idle → s.cfg = true
  gap : s.phase = .gap → s.rep = false ∧ s.seg = 0
  done : s.phase = .done → s.rep = true ∧ s.seg = 0
  level : levelAfter false s.trace = s.tx
  noCall : s.encoderCall = none

theorem inv_iff_midEdge (s : State) : Inv s ↔ MidEdge s ∧ (s.phase ≠ .idle → s.tmr ≠ 0#14) :=
  ⟨fun h => ⟨⟨⟨h.mem_wf, h.typed⟩, h.idle, h.bitcnt_range, h.tmr_range, h.configured, h.gap, h.done, h.level, h.noCall⟩,
      h.waiting⟩,
    fun ⟨h, hw⟩ => ⟨h.frame.1, h.frame.2, h.idle, h.bitcnt_range, h.tmr_range, h.configured, hw, h.gap, h.done, h.level,
      h.noCall⟩⟩

theorem Inv.midEdge {s : State} (h : Inv s) : MidEdge s := ((inv_iff_midEdge s).1 h).1

/-- Outside the three symbol phases the symbol counter stands at 0 (spec/10_state.md R28). -/
theorem MidEdge.bitcnt_eq_zero {s : State} (h : MidEdge s) (hp : phaseSymbols s.phase s.hc = 0) : s.bitcnt = 0#7 := by
  simpa [State.bitcntInRange_iff, hp] using h.bitcnt_range

/-! ### The parts of an edge -/

theorem MidEdge.countTick {s : State} (h : MidEdge s) : MidEdge s.countTick where
  frame := by simpa using h.frame
  idle hp := by
    have hi := h.idle (by simpa using hp)
    rwa [State.countTick_eq hi.2.1]
  bitcnt_range := by simpa [State.bitcntInRange_iff] using h.bitcnt_range
  tmr_range := s.countTick_tmr_le.trans h.tmr_range
  configured := by simpa using h.configured
  gap := by simpa using h.gap
  done := by simpa using h.done
  level := by simpa using h.level
  noCall := by simpa using h.noCall

theorem MidEdge.update_enter {s : State} (h : MidEdge s) (hcfg : s.cfg = true) (hum : Byte) (temp : BitVec 32) (bok : Bool) :
    MidEdge (s.update hum temp bok).enter where
  frame := h.frame.updateFrame _ _ _ hum temp bok
  idle hp := by simp at hp
  bitcnt_range := by simp [State.bitcntInRange_iff]
  tmr_range := by simp
  configured _ := hcfg
  gap hp := by simp at hp
  done hp := by simp at hp
  level := h.level
  noCall := h.noCall

theorem MidEdge.writeConfig {s : State} (h : MidEdge s) (hidle : s.phase = .idle) {m : Memory} {hc cfg : Bool} (pin : Byte)
    (hf : TypedFrame cfg hc m) : MidEdge { s with mem := m, hc := hc, cfg := cfg, pinsel := pin } where
  frame := hf
  idle := h.idle
  bitcnt_range := (State.bitcntInRange_iff _).2 (.inr (h.bitcnt_eq_zero (by simp [hidle, phaseSymbols])))
  tmr_range := h.tmr_range
  configured hp := absurd hidle hp
  gap := h.gap
  done := h.done
  level := h.level
  noCall := h.noCall

theorem MidEdge.exec_command {s t : State} (h : MidEdge s) (hidle : s.phase = .idle) {w : CommandWord}
    (he : exec (decodeCommand w) s = .next t) : MidEdge t := by
  rcases exec_decodeCommand_cases he with ⟨m, hc, cfg, pin, rfl, hf⟩ | ⟨hum, temp, bok, hcfg, rfl⟩
  · exact h.writeConfig hidle pin (hf h.frame)
  · exact h.update_enter hcfg hum temp bok

theorem MidEdge.inv_symbolStep {s : State} (h : MidEdge s) (b : Bool)
    (hp : s.phase = .preamble ∨ s.phase = .payload ∨ s.phase = .postamble) : Inv (s.symbolStep b) := by
  obtain ⟨hbusy, hrange, hgap, hdone⟩ := State.symbolStep_position b hp h.bitcnt_range
  obtain ⟨hne, htoNat, hle⟩ := segTicks_loaded s.seg
  exact {
    mem_wf := by simpa using h.frame.1
    typed := by simpa using h.frame.2
    idle := fun hi => absurd hi hbusy
    bitcnt_range := hrange
    tmr_range := by rw [State.symbolStep_tmr, htoNat]; exact hle
    configured := fun _ => by
      rw [State.symbolStep_cfg]
      exact h.configured (by rcases hp with hp | hp | hp <;> simp [hp])
    waiting := fun _ => by rw [State.symbolStep_tmr]; exact hne
    gap := by simpa using hgap
    done := by simpa using hdone
    level := by simp [levelAfter_append, levelAfter_segEvents]
    noCall := by simpa using h.noCall }

theorem MidEdge.inv_gapStep {s : State} (h : MidEdge s) (hp : s.phase = .gap) : Inv s.gapStep where
  mem_wf := h.frame.1
  typed := h.frame.2
  idle hi := by simp at hi
  bitcnt_range := (State.bitcntInRange_iff _).2 (.inr (h.bitcnt_eq_zero (by simp [hp, phaseSymbols])))
  tmr_range := by simp [Config.gapUs]
  configured _ := h.configured (by simp [hp])
  waiting _ := by simp [Config.gapUs]
  gap hg := by simp at hg
  done hd := by simp at hd
  level := by rw [State.gapStep_trace, levelAfter_append, levelAfter_wait, levelAfter_append, levelAfter_levelEvent, State.gapStep_tx]
  noCall := h.noCall

theorem MidEdge.inv_doneStep {s : State} (h : MidEdge s) (hp : s.phase = .done) (htmr : s.tmr = 0#14) : Inv s.doneStep where
  mem_wf := h.frame.1
  typed := h.frame.2
  idle _ := ⟨rfl, htmr, rfl, h.bitcnt_eq_zero (by simp [hp, phaseSymbols]), (h.done hp).2⟩
  bitcnt_range := (State.bitcntInRange_iff _).2 (.inr (h.bitcnt_eq_zero (by simp [hp, phaseSymbols])))
  tmr_range := h.tmr_range
  configured hi := by simp at hi
  waiting hi := by simp at hi
  gap hg := by simp at hg
  done hd := by simp at hd
  level := by simp [levelAfter_append]
  noCall := h.noCall

/-- The sequencer's step, taken where it is due, restores the invariant. -/
theorem MidEdge.inv_settle {s : State} (h : MidEdge s) : Inv s.settle := by
  by_cases htmr : s.tmr = 0#14
  · rw [State.settle_expired htmr]
    cases hp : s.phase with
    | idle =>
      rw [State.sequencerStep_idle hp]
      exact (inv_iff_midEdge s).2 ⟨h, fun hbusy => absurd hp hbusy⟩
    | gap => rw [State.sequencerStep_gap hp]; exact h.inv_gapStep hp
    | done => rw [State.sequencerStep_done hp]; exact h.inv_doneStep hp htmr
    | preamble => rw [State.sequencerStep_symbol (.inl hp)]; exact h.inv_symbolStep _ (.inl hp)
    | payload => rw [State.sequencerStep_symbol (.inr (.inl hp))]; exact h.inv_symbolStep _ (.inr (.inl hp))
    | postamble => rw [State.sequencerStep_symbol (.inr (.inr hp))]; exact h.inv_symbolStep _ (.inr (.inr hp))
  · rw [State.settle_running htmr]
    exact (inv_iff_midEdge s).2 ⟨h, fun _ => htmr⟩

theorem Inv.nextInputs {s : State} (h : Inv s) : Inv s.nextInputs :=
  ⟨h.mem_wf, h.typed, h.idle, h.bitcnt_range, h.tmr_range, h.configured, h.waiting, h.gap, h.done, h.level, h.noCall⟩

/-- A block with every register 0 is a state of the machine; the reset state and every reset edge lead to one. -/
theorem inv_of_allRegistersZero {s : State} (h : AllRegistersZero s) (hwf : s.mem.wf) (hlevel : levelAfter false s.trace = false)
    (hcall : s.encoderCall = none) : Inv s := by
  obtain ⟨-, -, hcfg, -, hphase, hrep, hbitcnt, hseg, htmr, htx⟩ := h
  exact {
    mem_wf := hwf
    typed := by simp [hcfg]
    idle := fun _ => ⟨htx, htmr, hrep, hbitcnt, hseg⟩
    bitcnt_range := (State.bitcntInRange_iff s).2 (.inr hbitcnt)
    tmr_range := by simp [htmr]
    configured := by simp [hphase]
    waiting := by simp [hphase]
    gap := by simp [hphase]
    done := by simp [hphase]
    level := hlevel.trans htx.symm
    noCall := hcall }

/-! ### The obligations -/

/-- Settles O40: a reset edge clears the block; at any other edge the tick and the command keep `MidEdge`, and the sequencer's step
restores `Inv`. -/
theorem everyStepKeepsTheInvariant : Obligations.EveryStepKeepsTheInvariant := by
  intro s t hinv h
  rcases step_cases h with ⟨-, rfl⟩ | ⟨-, -, -, rfl⟩ | ⟨-, -, w, i, u, hf, hd, he, rfl⟩
  · exact inv_of_allRegistersZero s.resetEdge_allRegistersZero Memory.wf_empty (State.levelAfter_resetTrace hinv.level) rfl
  · exact hinv.midEdge.countTick.inv_settle.nextInputs
  · obtain ⟨hidle, ⟨l, hl, -⟩ | ⟨-, -, rfl⟩⟩ := fetch_some hf
    · exact absurd hl (by simp [hinv.noCall])
    · cases hd
      rw [State.takeCall_eq (by simpa using hinv.noCall)] at he
      exact (hinv.midEdge.countTick.exec_command (by simpa using hidle) he).inv_settle.nextInputs

/-- Settles O39: a block in flight fetches nothing, and neither the tick nor the sequencer writes these registers. -/
theorem busyBlockKeepsItsConfiguration : Obligations.BusyBlockKeepsItsConfiguration := by
  intro s t hrst hbusy h
  rcases step_cases h with ⟨hr, -⟩ | ⟨-, -, -, rfl⟩ | ⟨-, -, w, i, u, hf, -⟩
  · simp [hrst] at hr
  · simp
  · simp [fetch_busy hbusy] at hf

/-- Settles O1. -/
theorem resetClearsEveryRegister : Obligations.ResetClearsEveryRegister :=
  ⟨State.reset_allRegistersZero, Memory.wf_empty⟩

/-- Settles O2: its registers are all 0. -/
theorem resetStateMeetsTheInvariant : Obligations.ResetStateMeetsTheInvariant :=
  inv_of_allRegistersZero State.reset_allRegistersZero Memory.wf_empty rfl rfl

/-- Settles O42, by what `stuck` says of a position. -/
theorem impossiblePositionIsStuck : Obligations.ImpossiblePositionIsStuck := by
  intro s hrst hbusy hpos
  rw [symbolsHere_eq] at hpos
  have hstuck : s.stuck = true := s.stuck_iff.2 ⟨hbusy, hpos⟩
  simp [step_busy hbusy, hrst, hstuck]

/-- Settles O46. -/
theorem portsShowTheRegisters : Obligations.PortsShowTheRegisters :=
  fun s => ⟨s.busy_iff, s.cmdReady_iff, rfl, rfl, rfl, rfl⟩

end Sys2Proof.Safety
end

section
/-! PROOFS, spec/20_memory.md R63: the frame view is nine bytes appended, `F[0]` lowest, so byte `i + 1` of it is byte `i` of what is
left once the lowest byte is taken off. -/
namespace Sys2Proof.Machine

theorem extractByte_zero_append {w : Nat} (above : BitVec w) (lowest : Byte) :
    (above ++ lowest).extractLsb' (8 * 0) 8 = lowest :=
  BitVec.extractLsb'_append_eq_right

theorem extractByte_succ_append {w : Nat} (above : BitVec w) (lowest : Byte) (i : Nat) :
    (above ++ lowest).extractLsb' (8 * (i + 1)) 8 = above.extractLsb' (8 * i) 8 := by
  rw [BitVec.extractLsb'_append_eq_of_le (by omega), Nat.mul_add_one, Nat.add_sub_cancel]

/-- Settles O47: at byte `i` the `i` bytes below it are taken off; `F[8]` has none above it. -/
theorem frameViewShowsEveryByte : Obligations.FrameViewShowsEveryByte := by
  intro s i hi
  unfold State.frameQ
  obtain rfl | hi : i = 8 ∨ i < 8 := by omega
  · simp only [extractByte_succ_append]
    exact BitVec.extractLsb'_eq_self
  · interval_cases i <;> simp only [extractByte_succ_append, extractByte_zero_append]

end Sys2Proof.Machine
end

section
/-! PROOFS, spec/30_encoding.md R70 to R73, R87 and spec/44_commands.md R198: the decoder, said once for each opcode of a command word
and for each kind of a line word, and what the reserved opcodes do. -/
namespace Sys2Proof

/-! ### What a command word decodes to (R71) -/

theorem decodeCommand_nop {w : CommandWord} (h : fieldOp w = 0x0#4) : decodeCommand w = .nop := by
  simp [decodeCommand, h]

theorem decodeCommand_configure {w : CommandWord} (h : fieldOp w = 0x1#4) :
    decodeCommand w = .configure (fieldA w) (fieldB w) (fieldC w) (fieldFlag w) := by
  simp [decodeCommand, h]

theorem decodeCommand_setPin {w : CommandWord} (h : fieldOp w = 0x2#4) : decodeCommand w = .setPin (fieldA w) := by
  simp [decodeCommand, h]

theorem decodeCommand_setHc {w : CommandWord} (h : fieldOp w = 0x3#4) : decodeCommand w = .setHc (fieldFlag w) := by
  simp [decodeCommand, h]

theorem decodeCommand_setIdch {w : CommandWord} (h : fieldOp w = 0x4#4) :
    decodeCommand w = .setIdch (fieldC w) (fieldB w) := by
  simp [decodeCommand, h]

theorem decodeCommand_send {w : CommandWord} (h : fieldOp w = 0x5#4) :
    decodeCommand w = .send (fieldA w) (fieldTemp w) (fieldFlag w) := by
  simp [decodeCommand, h]

theorem decodeCommand_reserved67 {w : CommandWord} (h : fieldOp w = 0x6#4 ∨ fieldOp w = 0x7#4) :
    decodeCommand w = .reserved67 (fieldOp w) := by
  rcases h with h | h <;> simp [decodeCommand, h]

theorem decodeCommand_reserved8F {w : CommandWord} (h : 8 ≤ (fieldOp w).toNat) :
    decodeCommand w = .reserved8F (fieldOp w) := by
  unfold decodeCommand
  split
  case h_9 => rfl
  all_goals omega

/-- The rows of the opcode map: six commands, and the two ranges of reserved opcodes (R71). -/
theorem opcode_cases (op : BitVec 4) :
    op = 0x0#4 ∨ op = 0x1#4 ∨ op = 0x2#4 ∨ op = 0x3#4 ∨ op = 0x4#4 ∨ op = 0x5#4 ∨ (op = 0x6#4 ∨ op = 0x7#4) ∨ 8 ≤ op.toNat := by
  revert op
  decide

theorem decodeCommand_wellFormed (w : CommandWord) : (decodeCommand w).wellFormed = true := by
  rcases opcode_cases (fieldOp w) with h | h | h | h | h | h | h | h
  · rw [decodeCommand_nop h]; rfl
  · rw [decodeCommand_configure h]; rfl
  · rw [decodeCommand_setPin h]; rfl
  · rw [decodeCommand_setHc h]; rfl
  · rw [decodeCommand_setIdch h]; rfl
  · rw [decodeCommand_send h]; rfl
  · rw [decodeCommand_reserved67 h]; simpa [Instr.wellFormed] using h
  · rw [decodeCommand_reserved8F h]; simpa [Instr.wellFormed] using h

/-! ### What a line word decodes to (R87 (b), (c); assumption 4) -/

theorem toNat_zero_append_lt (zeros : Nat) {k : Nat} (letters : BitVec k) : (0#zeros ++ letters).toNat < 2 ^ k := by
  rw [BitVec.toNat_append]
  simpa using letters.isLt

theorem decodeLine_nibbleLo (n : Nibble) :
    decodeLine (lineWord 1 (0#12 ++ n)) = .ok (.nibbleLo (Machine.pack 0x0#4 n)) := by
  have hletters : (0#12 ++ n).toNat < 16 := toNat_zero_append_lt 12 n
  have hoperand : (0#12 ++ n).extractLsb' 0 4 = n := BitVec.extractLsb'_append_eq_right
  simp only [decodeLine, lineKind_lineWord, linePattern_lineWord, hletters, hoperand]
  rfl

theorem decodeLine_nibbleHi (n : Nibble) :
    decodeLine (lineWord 2 (0#12 ++ n)) = .ok (.nibbleHi (Machine.pack n 0x0#4)) := by
  have hletters : (0#12 ++ n).toNat < 16 := toNat_zero_append_lt 12 n
  have hoperand : (0#12 ++ n).extractLsb' 0 4 = n := BitVec.extractLsb'_append_eq_right
  simp only [decodeLine, lineKind_lineWord, linePattern_lineWord, hletters, hoperand]
  rfl

theorem decodeLine_byte (v : Byte) : decodeLine (lineWord 3 (0#8 ++ v)) = .ok (.byte v) := by
  have hletters : (0#8 ++ v).toNat < 256 := toNat_zero_append_lt 8 v
  have hoperand : (0#8 ++ v).extractLsb' 0 8 = v := BitVec.extractLsb'_append_eq_right
  simp only [decodeLine, lineKind_lineWord, linePattern_lineWord, hletters, hoperand]
  rfl

/-- What a line word can decode to: a row without operand, a nibble row with the operand's other nibble 0, or BYTE. -/
theorem decodeLine_cases {l : LineWord} {i : Instr} (h : decodeLine l = .ok i) :
    i ∈ [Instr.zero, .one, .preamble, .postambleT, .postambleTH] ∨ (∃ n, i = .nibbleLo (Machine.pack 0x0#4 n)) ∨
      (∃ n, i = .nibbleHi (Machine.pack n 0x0#4)) ∨ ∃ v, i = .byte v := by
  unfold decodeLine at h
  simp only at h
  split at h
  case h_1 =>
    repeat' split at h
    all_goals cases h
    all_goals simp
  case h_2 => split at h <;> cases h; exact .inr (.inl ⟨_, rfl⟩)
  case h_3 => split at h <;> cases h; exact .inr (.inr (.inl ⟨_, rfl⟩))
  case h_4 => split at h <;> cases h; exact .inr (.inr (.inr ⟨_, rfl⟩))
  case h_5 => split at h <;> cases h; exact .inl (by decide)
  case h_6 => cases h

theorem decodeLine_wellFormed {l : LineWord} {i : Instr} (h : decodeLine l = .ok i) : i.wellFormed = true := by
  rcases decodeLine_cases h with hi | ⟨n, rfl⟩ | ⟨n, rfl⟩ | ⟨v, rfl⟩
  · clear h
    revert i
    decide
  · exact beq_iff_eq.2 (Machine.hi_pack _ n)
  · exact beq_iff_eq.2 (Machine.lo_pack n _)
  · rfl

/-! ### The bits that a command looks at (R73) -/

/-- Words that agree on a mask agree on every field within it. -/
theorem extractLsb'_congr_of_mask {w v mask : CommandWord} (h : w &&& mask = v &&& mask) {start len : Nat}
    (hfield : mask.extractLsb' start len = BitVec.allOnes len) : w.extractLsb' start len = v.extractLsb' start len := by
  simpa only [BitVec.extractLsb'_and, hfield, BitVec.and_allOnes] using congrArg (BitVec.extractLsb' start len) h

theorem fieldFlag_congr_of_mask {w v mask : CommandWord} (h : w &&& mask = v &&& mask) (hfield : mask.getLsbD 32 = true) :
    fieldFlag w = fieldFlag v := by
  simpa only [fieldFlag, BitVec.getLsbD_and, hfield, Bool.and_true] using congrArg (BitVec.getLsbD · 32) h

theorem usedBits_opcode (op : BitVec 4) : (Safety.usedBits op).extractLsb' 60 4 = BitVec.allOnes 4 := by
  revert op
  decide

/-! ### The obligations -/

/-- Settles O5: the fields of an assembled word are its operands; a nibble row gives its operand back because the other nibble
is 0. -/
theorem decodeOfEncodeIsTheInstruction : Obligations.DecodeOfEncodeIsTheInstruction := by
  intro i hi
  cases i with
  | nop => exact congrArg _ (decodeCommand_nop (fieldOp_commandWord ..))
  | configure pin channel ident hc =>
    simp [encode, decode, decodeCommand_configure, fieldOp_commandWord, fieldA_commandWord, fieldB_commandWord,
      fieldC_commandWord, fieldFlag_commandWord]
  | setPin pin => simp [encode, decode, decodeCommand_setPin, fieldOp_commandWord, fieldA_commandWord]
  | setHc hc => simp [encode, decode, decodeCommand_setHc, fieldOp_commandWord, fieldFlag_commandWord]
  | setIdch ident channel =>
    simp [encode, decode, decodeCommand_setIdch, fieldOp_commandWord, fieldB_commandWord, fieldC_commandWord]
  | send hum temp bok =>
    simp [encode, decode, decodeCommand_send, fieldOp_commandWord, fieldA_commandWord, fieldFlag_commandWord,
      fieldTemp_commandWord]
  | reserved67 op =>
    have hop : op = 0x6#4 ∨ op = 0x7#4 := by simpa [Instr.wellFormed] using hi
    simp [encode, decode, decodeCommand_reserved67, fieldOp_commandWord, hop]
  | reserved8F op =>
    have hop : 8 ≤ op.toNat := by simpa [Instr.wellFormed] using hi
    simp [encode, decode, decodeCommand_reserved8F, fieldOp_commandWord, hop]
  | nibbleLo v =>
    have hother : Machine.hi v = 0x0#4 := beq_iff_eq.1 hi
    have hv : Machine.pack 0x0#4 (Machine.lo v) = v := hother ▸ Machine.pack_hi_lo v
    exact (decodeLine_nibbleLo (Machine.lo v)).trans (by rw [hv])
  | nibbleHi v =>
    have hother : Machine.lo v = 0x0#4 := beq_iff_eq.1 hi
    have hv : Machine.pack (Machine.hi v) 0x0#4 = v := hother ▸ Machine.pack_hi_lo v
    exact (decodeLine_nibbleHi (Machine.hi v)).trans (by rw [hv])
  | byte v => exact decodeLine_byte v
  | zero => rfl
  | one => rfl
  | preamble => rfl
  | postambleT => rfl
  | postambleTH => rfl

/-- Settles O6. -/
theorem decodedInstructionsAreWellFormed : Obligations.DecodedInstructionsAreWellFormed := by
  intro w i h
  cases w with
  | command w =>
    cases h
    exact decodeCommand_wellFormed w
  | line l => exact decodeLine_wellFormed h

/-- Settles O7: the words agree on the opcode, and on each field of the row of that opcode. -/
theorem ignoredBitsDoNotMatter : Obligations.IgnoredBitsDoNotMatter := by
  intro w v h
  have hop : fieldOp w = fieldOp v := extractLsb'_congr_of_mask h (usedBits_opcode _)
  generalize hw : fieldOp w = op at h hop
  rcases opcode_cases op with rfl | rfl | rfl | rfl | rfl | rfl | hreserved | hreserved
  · rw [decodeCommand_nop hw, decodeCommand_nop hop.symm]
  · have hA : fieldA w = fieldA v := extractLsb'_congr_of_mask h (by decide)
    have hB : fieldB w = fieldB v := extractLsb'_congr_of_mask h (by decide)
    have hC : fieldC w = fieldC v := extractLsb'_congr_of_mask h (by decide)
    have hflag : fieldFlag w = fieldFlag v := fieldFlag_congr_of_mask h (by decide)
    rw [decodeCommand_configure hw, decodeCommand_configure hop.symm, hA, hB, hC, hflag]
  · have hA : fieldA w = fieldA v := extractLsb'_congr_of_mask h (by decide)
    rw [decodeCommand_setPin hw, decodeCommand_setPin hop.symm, hA]
  · have hflag : fieldFlag w = fieldFlag v := fieldFlag_congr_of_mask h (by decide)
    rw [decodeCommand_setHc hw, decodeCommand_setHc hop.symm, hflag]
  · have hB : fieldB w = fieldB v := extractLsb'_congr_of_mask h (by decide)
    have hC : fieldC w = fieldC v := extractLsb'_congr_of_mask h (by decide)
    rw [decodeCommand_setIdch hw, decodeCommand_setIdch hop.symm, hB, hC]
  · have hA : fieldA w = fieldA v := extractLsb'_congr_of_mask h (by decide)
    have htemp : fieldTemp w = fieldTemp v := extractLsb'_congr_of_mask h (by decide)
    have hflag : fieldFlag w = fieldFlag v := fieldFlag_congr_of_mask h (by decide)
    rw [decodeCommand_send hw, decodeCommand_send hop.symm, hA, htemp, hflag]
  · rw [decodeCommand_reserved67 (hw ▸ hreserved), decodeCommand_reserved67 (hop ▸ hreserved), hw, hop]
  · rw [decodeCommand_reserved8F (hw ▸ hreserved), decodeCommand_reserved8F (hop ▸ hreserved), hw, hop]

/-- Settles O4. -/
theorem knownCommandWordsDecode : Obligations.KnownCommandWordsDecode := by
  unfold Obligations.KnownCommandWordsDecode
  decide

/-- Settles O12: an opcode of 6 or more is one of a reserved row, and both rows run as NOP. -/
theorem reservedOpcodesChangeNothing : Obligations.ReservedOpcodesChangeNothing := by
  refine ⟨fun s op => ⟨rfl, rfl⟩, fun s w hop => ?_⟩
  obtain h | h : (fieldOp w = 0x6#4 ∨ fieldOp w = 0x7#4) ∨ 8 ≤ (fieldOp w).toNat := by bv_omega
  · rw [decodeCommand_reserved67 h]; rfl
  · rw [decodeCommand_reserved8F h]; rfl

end Sys2Proof
end

section
/-! PROOFS, spec/42_message_builder.md R139 to R144 and spec/43_tx_sequencer.md R160: the digits of a reading, nibble by nibble. The
units digit is computed through three roundings, each of a value of at most `2^17` and so off by at most 1/100: the result stays
within 1/2 of the decimal digit, which `rha` gives (R142 (a)). -/
namespace Sys2Proof.Machine

/-! ### The units digit -/

theorem round_near (r : Config.Rounding) {x : Frac} (hx : 0 < x.den) (h : |x.val| ≤ 2 ^ 17) :
    |(round r x).val - x.val| ≤ 1 / 100 := by
  have := round_error r hx
  linarith

theorem decimalDigit_le (n : Nat) : ((n % 10 : Nat) : ℚ) ≤ 9 := by
  exact_mod_cast Nat.le_of_lt_succ (Nat.mod_lt n (by norm_num))

/-- What is left of `n / 10` without the tens, after two roundings, is near the units as tenths. -/
theorem unitsFraction_near (r : Config.Rounding) {n : Nat} (hn : n < 2 ^ 20) :
    |(round r ((round r ⟨n, 10⟩).subInt (n / 10 : Nat))).val - (n % 10 : Nat) / 10| ≤ 1 / 50 := by
  have hsize : (n : ℚ) ≤ 2 ^ 20 := by exact_mod_cast hn.le
  have hsplit : (n : ℚ) = 10 * (n / 10 : Nat) + (n % 10 : Nat) := by exact_mod_cast (Nat.div_add_mod n 10).symm
  have hdigit := decimalDigit_le n
  have hdigit0 : (0 : ℚ) ≤ (n % 10 : Nat) := Nat.cast_nonneg _
  have htenth : (⟨n, 10⟩ : Frac).val = n / 10 := by simp [Frac.val]
  have hquotient := round_near r (x := ⟨n, 10⟩) (by norm_num)
    (by rw [htenth, abs_of_nonneg (by positivity)]; linarith)
  have hden : 0 < (round r ⟨n, 10⟩).den := round_den_pos r (by norm_num)
  have hrest : ((round r ⟨n, 10⟩).subInt (n / 10 : Nat)).val = (round r ⟨n, 10⟩).val - (n / 10 : Nat) := by
    rw [Frac.val_subInt hden, Int.cast_natCast]
  rw [htenth, abs_le] at hquotient
  have hrounded := round_near r (x := (round r ⟨n, 10⟩).subInt (n / 10 : Nat)) hden
    (by rw [hrest, abs_le]; constructor <;> linarith)
  rw [hrest, abs_le] at hrounded
  rw [abs_le]
  constructor <;> linarith

/-- Times ten the distance is at most 1/5, and the last rounding adds at most 1/100. -/
theorem unitsDigit_eq_mod (r : Config.Rounding) {n : Nat} (hn : n < 2 ^ 20) : unitsDigit r n = n % 10 := by
  have hfraction := unitsFraction_near r hn
  have hden : 0 < (round r ((round r ⟨n, 10⟩).subInt (n / 10 : Nat))).den :=
    round_den_pos r (round_den_pos r (by norm_num))
  unfold unitsDigit
  generalize round r ((round r ⟨n, 10⟩).subInt (n / 10 : Nat)) = x at hfraction hden ⊢
  have hproduct : (x.mulInt 10).val = x.val * 10 := by rw [Frac.val_mulInt, Int.cast_ofNat]
  have hdigit := decimalDigit_le n
  have hdigit0 : (0 : ℚ) ≤ (n % 10 : Nat) := Nat.cast_nonneg _
  rw [abs_le] at hfraction
  have hrounded := round_near r (x := x.mulInt 10) hden (by rw [hproduct, abs_le]; constructor <;> linarith)
  rw [hproduct, abs_le] at hrounded
  rw [Frac.rha_of_close (round_den_pos r (x := x.mulInt 10) hden) (n % 10 : Nat), Int.toNat_natCast]
  rw [Int.cast_natCast, abs_lt]
  constructor <;> linarith

theorem tempInt_lt {t : BitVec 32} {m : Frac} (h : (f32val t).magnitude = some m) : tempInt m < 2 ^ 20 := by
  obtain ⟨-, hnonneg, hlt⟩ := magnitude_spec h
  have hfloor : ⌊m.val⌋ < 2 ^ 20 := Int.floor_lt.2 (by exact_mod_cast hlt)
  rw [← tempInt_eq_floor hnonneg] at hfloor
  exact_mod_cast hfloor

/-! ### The nibbles of the bytes that SET_BATTERY and SET_TEMPERATURE store -/

theorem lo_ofNat (n : Nat) : lo (BitVec.ofNat 8 n) = BitVec.ofNat 4 n := by
  apply BitVec.eq_of_toNat_eq
  rw [lo_toNat, BitVec.toNat_ofNat, BitVec.toNat_ofNat]
  omega

theorem hi_ofNat (n : Nat) : hi (BitVec.ofNat 8 n) = BitVec.ofNat 4 (n / 16) := by
  apply BitVec.eq_of_toNat_eq
  rw [hi_toNat, BitVec.toNat_ofNat, BitVec.toNat_ofNat]
  omega

theorem tenthsByte_nibbles (r : Config.Rounding) (free : Nibble) {t : BitVec 32} {m : Frac}
    (h : (f32val t).magnitude = some m) :
    lo (tenthsByte r free t) = 0x0#4 ∧ hi (tenthsByte r free t) = BitVec.ofNat 4 (tenthsDigit r m) := by
  have hbyte : tenthsByte r free t = BitVec.ofNat 8 (tenthsDigit r m * 16) := by
    simp [tenthsByte, h, tempDigits, Nat.shiftLeft_eq]
  rw [hbyte, lo_ofNat, hi_ofNat, Nat.mul_div_cancel _ (by norm_num)]
  exact ⟨BitVec.eq_of_toNat_eq (by simp), rfl⟩

/-- The units digit fits its nibble, so the tens and units do not overlap; the tens are cut to four bits (R142 (d)). -/
theorem digitsByte_nibbles (r : Config.Rounding) (free : Byte) {t : BitVec 32} {m : Frac}
    (h : (f32val t).magnitude = some m) :
    lo (digitsByte r free t) = BitVec.ofNat 4 (tempInt m % 10) ∧
      hi (digitsByte r free t) = BitVec.ofNat 4 (tempInt m / 10) := by
  have hunits : tempInt m % 10 < 2 ^ 4 := by omega
  have hbyte : digitsByte r free t = BitVec.ofNat 8 (tempInt m / 10 * 16 + tempInt m % 10) := by
    simp only [digitsByte, h, tempDigits, unitsDigit_eq_mod r (tempInt_lt h)]
    rw [← Nat.shiftLeft_add_eq_or_of_lt hunits, Nat.shiftLeft_eq]
  rw [hbyte, lo_ofNat, hi_ofNat]
  constructor
  · exact BitVec.eq_of_toNat_eq (by simp only [BitVec.toNat_ofNat]; omega)
  · congr 1
    omega

theorem lo_signByte (t : BitVec 32) : lo (signByte t) = if (f32val t).isNeg then 0x8#4 else 0x0#4 := by
  unfold signByte
  split <;> rfl

theorem battery_nibbles (bok : Bool) :
    lo (if bok then Config.battOk else Config.battLow) = (if bok then 0x0#4 else 0xC#4) ∧
      hi (if bok then Config.battOk else Config.battLow) = 0x0#4 := by
  cases bok <;> decide

/-! ### What a SEND leaves in the frame -/

theorem exec_send {s : State} (h : s.cfg = true) (hum : Byte) (temp : BitVec 32) (bok : Bool) :
    exec (.send hum temp bok) s = .next (s.update hum temp bok).enter :=
  if_pos h

/-- The bytes of the reading that both variants store alike (R160). -/
theorem read_updateFrame_reading (r : Config.Rounding) (fD : Byte) (fT : Nibble) (hc : Bool) (hum : Byte) (temp : BitVec 32)
    (bok : Bool) (m : Memory) :
    (updateFrame r fD fT hc hum temp bok m).read 4 =
        (if bok then Config.battOk else Config.battLow) ||| tenthsByte r fT temp ∧
      (updateFrame r fD fT hc hum temp bok m).read 5 = digitsByte r fD temp ∧
      lo ((updateFrame r fD fT hc hum temp bok m).read 6) = lo (signByte temp) := by
  cases hc with
  | false => exact read_updateFrame_T r fD fT hum temp bok m
  | true =>
    obtain ⟨h4, h5, h6, -⟩ := read_updateFrame_TH r fD fT hum temp bok m
    exact ⟨h4, h5, by rw [h6, lo_pack]⟩

/-- The humidity digits in variant TH (R144). -/
theorem updateFrame_humidity (r : Config.Rounding) (fD : Byte) (fT : Nibble) (hum : Byte) (temp : BitVec 32) (bok : Bool)
    (m : Memory) :
    hi ((updateFrame r fD fT true hum temp bok m).read 6) = BitVec.ofNat 4 (hum.toNat % 10) ∧
      ((updateFrame r fD fT true hum temp bok m).read 7).toNat = hum.toNat / 10 := by
  obtain ⟨-, -, h6, h7⟩ := read_updateFrame_TH r fD fT hum temp bok m
  have hunits : hum.toNat - hum.toNat / 10 * 10 = hum.toNat % 10 := by omega
  have hbyte := hum.isLt
  refine ⟨by rw [h6, hi_pack, hunits], ?_⟩
  rw [h7, BitVec.toNat_ofNat]
  omega

/-- Settles O19: the stored bytes are those of SET_BATTERY, SET_TEMPERATURE and SET_HUMIDITY, and the checksum keeps the nibbles of
the reading. -/
theorem sendPacksTheReading : Obligations.SendPacksTheReading := by
  intro s t hum temp bok m hcfg hm h
  rw [exec_send hcfg] at h
  cases h
  rw [State.enter_mem, State.update_mem]
  obtain ⟨h4, h5, h6⟩ := read_updateFrame_reading Config.numRnd (Config.freeDigits s.draws) (Config.freeTenths s.draws) s.hc
    hum temp bok s.mem
  obtain ⟨hbattery, hbatteryHi⟩ := battery_nibbles bok
  obtain ⟨htenthsLo, htenths⟩ := tenthsByte_nibbles Config.numRnd (Config.freeTenths s.draws) hm
  obtain ⟨hunits, htens⟩ := digitsByte_nibbles Config.numRnd (Config.freeDigits s.draws) hm
  refine ⟨?_, ?_, ?_, ?_, ?_, fun hhc => ?_⟩
  · rw [h4, lo_or, hbattery, htenthsLo, BitVec.or_zero]
  · rw [h4, hi_or, hbatteryHi, htenths, BitVec.zero_or]; rfl
  · rw [h5, hunits]
  · rw [h5, htens]
  · rw [h6, lo_signByte]
  · rw [hhc]
    exact updateFrame_humidity ..

end Sys2Proof.Machine
end

section
/-! PROOFS, spec/40_bitencoder.md R100 to R107: the events of the symbol and line operations, and the runs of 512 and 1024 ticks that a
sequence of symbols shows on the wire. -/
namespace Sys2Proof.Machine

/-! ### The events of a symbol -/

/-- The three segments of a symbol in the trace (R102). -/
theorem symbolEvents_eq (b : Bool) :
    symbolEvents b = [levelEvent (!b), .W 512, levelEvent b, .W 1024, levelEvent (!b), .W 512] :=
  rfl

theorem exec_zero (s : State) : exec .zero s = .next (s.symbol false) := rfl

theorem exec_one (s : State) : exec .one s = .next (s.symbol true) := rfl

/-- Settles O30: ZERO and ONE are the symbols of the bits 0 and 1, whose three segments are the six events. -/
theorem zeroAndOneEmitTheirSegments : Obligations.ZeroAndOneEmitTheirSegments := by
  constructor <;> intro s
  · rw [exec_zero, State.symbol_eq, symbolEvents_eq]
    rfl
  · rw [exec_one, State.symbol_eq, symbolEvents_eq]
    rfl

/-! ### The line operations -/

/-- The bits of a byte in air order are its bits 0 to 7 (R105). -/
theorem byteBits_eq_map_range (v : Byte) : byteBits v = (List.range 8).map fun j => v.getLsbD j := rfl

/-- NIBBLE_LO(0x00): four ZEROs, and the line is high after them (spec/43_tx_sequencer.md R164). -/
theorem State.emitNibbleLo_zero (s : State) :
    s.emitNibbleLo 0x00#8 =
      { s with tx := true, tmr := 0#14, trace := s.trace ++ bitsEvents (List.replicate 4 false) } :=
  State.emitNibbleLo_eq 0x00#8 s

/-- BYTE(0x00): eight ZEROs, and the line is high after them (spec/43_tx_sequencer.md R164). -/
theorem State.emitByte_zero (s : State) :
    s.emitByte 0x00#8 =
      { s with tx := true, tmr := 0#14, trace := s.trace ++ bitsEvents (List.replicate 8 false) } :=
  State.emitByte_eq 0x00#8 s

/-- Settles O31: each operation is one record update, said by the law of its emitter. -/
theorem lineOperationsEmitTheirBits : Obligations.LineOperationsEmitTheirBits := by
  intro s v
  have hbyte := State.emitByte_eq v s
  rw [byteBits_eq_map_range] at hbyte
  exact ⟨congrArg Host.Outcome.next (State.emitNibbleLo_eq v s), congrArg Host.Outcome.next (State.emitNibbleHi_eq v s),
    congrArg Host.Outcome.next hbyte, congrArg Host.Outcome.next (State.emitPreamble_eq s),
    congrArg Host.Outcome.next (State.emitNibbleLo_zero s), congrArg Host.Outcome.next (State.emitByte_zero s)⟩

/-! ### Merging runs -/

theorem mergeRuns_cons_same {l : Bool} {d d' : Nat} {segs runs : List (Bool × Nat)} (h : mergeRuns segs = (l, d') :: runs) :
    mergeRuns ((l, d) :: segs) = (l, d + d') :: runs := by
  simp [mergeRuns, h]

theorem mergeRuns_cons_of_ne {l l' : Bool} {d d' : Nat} {segs runs : List (Bool × Nat)} (hne : l ≠ l')
    (h : mergeRuns segs = (l', d') :: runs) : mergeRuns ((l, d) :: segs) = (l, d) :: (l', d') :: runs := by
  simp [mergeRuns, h, hne]

/-! ### The wire waveform of a sequence of symbols -/

/-- A run of the wire waveform within a copy lasts T or 2T (R107). -/
def ShortRun (run : Bool × Nat) : Prop := run.2 = 512 ∨ run.2 = 1024

@[simp] theorem shortRun_T (l : Bool) : ShortRun (l, 512) := .inl rfl
@[simp] theorem shortRun_twoT (l : Bool) : ShortRun (l, 1024) := .inr rfl

/-- The level before a symbol does not matter: its first event sets the line (R102). -/
theorem segmentsFrom_symbol (l b : Bool) (es : List Event) :
    segmentsFrom l (symbolEvents b ++ es) = (!b, 512) :: (b, 1024) :: (!b, 512) :: segmentsFrom (!b) es := by
  cases b <;> rfl

/-- Within a symbol the level changes at T and at 3T (R107): only its last segment can merge, with what follows the symbol. -/
theorem wireFrom_symbol {l b : Bool} {es : List Event} {d : Nat} {runs : List (Bool × Nat)}
    (h : mergeRuns ((!b, 512) :: segmentsFrom (!b) es) = (!b, d) :: runs) :
    wireFrom l (symbolEvents b ++ es) = (!b, 512) :: (b, 1024) :: (!b, d) :: runs := by
  rw [wireFrom, segmentsFrom_symbol]
  exact mergeRuns_cons_of_ne (Bool.not_ne_self b) (mergeRuns_cons_of_ne (Bool.self_ne_not b) h)

/-- From the first symbol on, the wire starts with a run of 512 at the complement of its bit, and every later run is short. The last
segment of a symbol has 512 ticks, so it merges with the next symbol's first run to 1024 where the two bits are equal, and stays a run
of 512 where they differ (R107). -/
theorem wireFrom_bitsEvents_cons (l b : Bool) (bs : List Bool) :
    ∃ runs, wireFrom l (bitsEvents (b :: bs)) = (!b, 512) :: runs ∧ ∀ run ∈ runs, ShortRun run := by
  induction bs generalizing l b with
  | nil => exact ⟨_, wireFrom_symbol (d := 512) (runs := []) rfl, by simp⟩
  | cons c cs ih =>
    obtain ⟨runs, hwire, hshort⟩ := ih (!b) c
    by_cases hbc : b = c
    · subst hbc
      exact ⟨_, wireFrom_symbol (mergeRuns_cons_same hwire), by simpa using hshort⟩
    · have hne : (!b) ≠ !c := fun h => hbc (Bool.not_inj h)
      exact ⟨_, wireFrom_symbol (mergeRuns_cons_of_ne hne hwire), by simpa using hshort⟩

/-- Settles O32: by induction over the symbols, in `wireFrom_bitsEvents_cons`; no symbols show no run. -/
theorem symbolsShowOnlyShortRuns : Obligations.SymbolsShowOnlyShortRuns := by
  intro l bits run hrun
  cases bits with
  | nil => cases hrun
  | cons b bs =>
    obtain ⟨runs, hwire, hshort⟩ := wireFrom_bitsEvents_cons l b bs
    rw [hwire] at hrun
    rcases List.mem_cons.mp hrun with rfl | hmem
    · exact shortRun_T _
    · exact hshort run hmem

end Sys2Proof.Machine
end

section
/-! PROOFS, spec/41_checksum.md R120 to R126: the nibble sum over the integers, the checksum's value, and what the two checksum
operations store. Neither changes a nibble that it sums, so the value over the frame it leaves is the value it stored. -/
namespace Sys2Proof.Machine

open Safety

/-! ### The nibble sum over the integers -/

@[simp] theorem nibbleTotal_zero (m : Memory) : nibbleTotal m 0 = 0 := rfl

theorem nibbleTotal_succ (m : Memory) (n : Nat) :
    nibbleTotal m (n + 1) = nibbleTotal m n + ((hi (m.read n)).toNat + (lo (m.read n)).toNat) := by
  simp [nibbleTotal, List.range_succ]

/-- `n` bytes more add between 0 and `n * 30`: a nibble is at most 15. -/
theorem nibbleTotal_add_bounds (m : Memory) (k n : Nat) :
    nibbleTotal m k ≤ nibbleTotal m (k + n) ∧ nibbleTotal m (k + n) ≤ nibbleTotal m k + n * 30 := by
  induction n with
  | zero => simp
  | succ n ih =>
    have hhi := (hi (m.read (k + n))).isLt
    have hlo := (lo (m.read (k + n))).isLt
    rw [← Nat.add_assoc, nibbleTotal_succ]
    omega

theorem nibbleTotal_le (m : Memory) (n : Nat) : nibbleTotal m n ≤ n * 30 := by
  have h := (nibbleTotal_add_bounds m 0 n).2
  rwa [nibbleTotal_zero, Nat.zero_add, Nat.zero_add] at h

theorem nibbleTotal_two (m : Memory) :
    nibbleTotal m 2 =
      (hi (m.read 0)).toNat + (lo (m.read 0)).toNat + ((hi (m.read 1)).toNat + (lo (m.read 1)).toNat) := by
  rw [nibbleTotal_succ, nibbleTotal_succ, nibbleTotal_zero, Nat.zero_add]

/-- The type constant `EA 4C` of variant T sums to 40, and four bytes more are summed. -/
theorem nibbleTotal_typeT_bounds {m : Memory} (h0 : m.read 0 = 0xEA#8) (h1 : m.read 1 = 0x4C#8) :
    40 ≤ nibbleTotal m 6 ∧ nibbleTotal m 6 ≤ 160 := by
  have htype : nibbleTotal m 2 = 40 := by
    rw [nibbleTotal_two, h0, h1]
    decide
  have hbounds := nibbleTotal_add_bounds m 2 4
  rw [htype] at hbounds
  exact hbounds

/-- The type constant `1A 2D` of variant TH sums to 26, and six bytes more are summed. -/
theorem nibbleTotal_typeTH_bounds {m : Memory} (h0 : m.read 0 = 0x1A#8) (h1 : m.read 1 = 0x2D#8) :
    26 ≤ nibbleTotal m 8 ∧ nibbleTotal m 8 ≤ 206 := by
  have htype : nibbleTotal m 2 = 26 := by
    rw [nibbleTotal_two, h0, h1]
    decide
  have hbounds := nibbleTotal_add_bounds m 2 6
  rw [htype] at hbounds
  exact hbounds

/-- The accumulator does not wrap while the bound `30` a byte fits its 16 bits. -/
theorem nibbleSum_toNat (m : Memory) {n : Nat} (hn : n * 30 < 2 ^ 16) : (nibbleSum m n).toNat = nibbleTotal m n := by
  induction n with
  | zero => rfl
  | succ n ih =>
    have hsum := ih (by omega)
    have hbound := nibbleTotal_le m (n + 1)
    rw [nibbleTotal_succ] at hbound ⊢
    rw [nibbleSum, BitVec.toNat_add, BitVec.toNat_add, BitVec.toNat_setWidth_of_le (by decide),
      BitVec.toNat_setWidth_of_le (by decide), hsum]
    omega

/-- Settles O24: nine bytes sum to at most 270, far below the accumulator's `2^16`. -/
theorem nibbleSumIsExact : Obligations.NibbleSumIsExact := by
  intro m count hcount
  exact ⟨nibbleSum_toNat m (by omega), nibbleTotal_le m count⟩

/-! ### The value of the checksum -/

/-- Taking the bias off and cutting to a byte is adding `246 = 256 - 10` modulo 256 (R121, R122). -/
theorem sub_ckBias_toNat (x : BitVec 16) : ((x - Config.ckBias).setWidth 8).toNat = (x.toNat + 246) % 256 := by
  rw [BitVec.toNat_setWidth, BitVec.toNat_sub, show Config.ckBias.toNat = 10 from rfl]
  omega

theorem checksumValueT_toNat (m : Memory) :
    (checksumValueT m).toNat = (nibbleTotal m 6 + (lo (m.read 6)).toNat + 246) % 256 := by
  have hsum := nibbleSum_toNat m (n := 6) (by norm_num)
  have hbound := nibbleTotal_le m 6
  have hlo := (lo (m.read 6)).isLt
  rw [checksumValueT, sub_ckBias_toNat, Config.ckNT, BitVec.toNat_add, BitVec.toNat_setWidth_of_le (by decide), hsum]
  omega

theorem checksumValueTH_toNat (m : Memory) : (checksumValueTH m).toNat = (nibbleTotal m 8 + 246) % 256 := by
  rw [checksumValueTH, sub_ckBias_toNat, Config.ckNTH, nibbleSum_toNat m (by norm_num)]

/-! ### What the checksum stores -/

@[simp] theorem checksum_false (m : Memory) : checksum false m = checksumT m := rfl

@[simp] theorem checksum_true (m : Memory) : checksum true m = checksumTH m := rfl

/-- CHECKSUM_T stores the two nibbles of its value and keeps the low nibble of `F[6]` (R121). -/
theorem checksumT_stores (m : Memory) :
    (hi ((checksumT m).read 6)).toNat = (checksumValueT m).toNat % 16 ∧ lo ((checksumT m).read 6) = lo (m.read 6) ∧
      ((checksumT m).read 7).toNat = (checksumValueT m).toNat / 16 := by
  refine ⟨?_, ?_, ?_⟩
  · simp [lo_toNat]
  · simp
  · rw [read_checksumT, if_pos rfl, BitVec.toNat_setWidth_of_le (by decide), hi_toNat]

/-- Settles O25: with the type bytes the sum and the sign nibble lie in 40 to 168, above the bias and below the wrap (R123). -/
theorem checksumTStoresItsNibbles : Obligations.ChecksumTStoresItsNibbles := by
  intro m v
  obtain ⟨hhi, hlo, hbyte⟩ := checksumT_stores m
  rw [checksumValueT_toNat] at hhi hbyte
  refine ⟨hhi, hlo, hbyte, fun a h6 h7 => ?_, fun h0 h1 hsign => ?_⟩
  · rw [checksum_false, read_checksumT, if_neg h7, if_neg h6]
  · obtain ⟨hmin, hmax⟩ := nibbleTotal_typeT_bounds h0 h1
    omega

/-- Settles O26: with the type bytes the sum lies between 26 and 206, above the bias and below the wrap (R123). -/
theorem checksumTHStoresItsByte : Obligations.ChecksumTHStoresItsByte := by
  intro m v
  refine ⟨?_, fun a h8 => ?_, fun h0 h1 => ?_⟩
  · rw [checksum_true, read_checksumTH, if_pos rfl, checksumValueTH_toNat]
  · rw [checksum_true, read_checksumTH, if_neg h8]
  · obtain ⟨hmin, hmax⟩ := nibbleTotal_typeTH_bounds h0 h1
    omega

/-! ### Recomputing the checksum over the frame that it leaves -/

/-- The bytes summed and `lo(F[6])` are those of the frame before (R126). -/
theorem checksumValueT_checksumT (m : Memory) : checksumValueT (checksumT m) = checksumValueT m := by
  have hsum : nibbleSum (checksumT m) 6 = nibbleSum m 6 := nibbleSum_congr fun a ha => by
    rw [read_checksumT, if_neg (by omega), if_neg (by omega)]
  obtain ⟨-, hlo, -⟩ := checksumT_stores m
  rw [checksumValueT, checksumValueT, Config.ckNT, hsum, hlo]

/-- The bytes summed are those of the frame before (R126). -/
theorem checksumValueTH_checksumTH (m : Memory) : checksumValueTH (checksumTH m) = checksumValueTH m := by
  have hsum : nibbleSum (checksumTH m) 8 = nibbleSum m 8 := nibbleSum_congr fun a ha => by
    rw [read_checksumTH, if_neg (by omega)]
  rw [checksumValueTH, checksumValueTH, Config.ckNTH, hsum]

/-- The checksum is the last thing that the update step of a SEND does (R125). -/
theorem exec_send_mem {s t : State} {hum : Byte} {temp : BitVec 32} {bok : Bool} (hcfg : s.cfg = true)
    (h : exec (.send hum temp bok) s = .next t) : ∃ m, t.mem = checksum s.hc m := by
  rw [exec_send hcfg] at h
  cases h
  exact ⟨_, by rw [State.enter_mem, State.update_mem, updateFrame]⟩

/-- Settles O21: the frame is one that CHECKSUM left, and its value over that frame is the value stored. -/
theorem checksumReproducesTheStoredBytes : Obligations.ChecksumReproducesTheStoredBytes := by
  intro s t hum temp bok hcfg h
  obtain ⟨m, hmem⟩ := exec_send_mem hcfg h
  refine ⟨fun hhc => ?_, fun hhc => ?_⟩
  · rw [hhc, checksum_true] at hmem
    rw [hmem, ← checksumValueTH_toNat, checksumValueTH_checksumTH, read_checksumTH, if_pos rfl]
  · rw [hhc, checksum_false] at hmem
    rw [hmem, ← checksumValueT_toNat, checksumValueT_checksumT]
    obtain ⟨hhi, -, hbyte⟩ := checksumT_stores m
    exact ⟨hhi, hbyte⟩

end Sys2Proof.Machine
end

section
/-! PROOFS, spec/42_message_builder.md R142 to R145: the bounds of the temperature's digits, the bytes of a SEND whose temperature has
no digits, and the humidity digits. -/
namespace Sys2Proof.Machine

/-! ### The digits of a temperature in range -/

/-- Settles O27: the three roundings together move the product by less than 1/2 (`unitsDigit_eq_mod`). -/
theorem unitsDigitIsTheLastDecimalDigit : Obligations.UnitsDigitIsTheLastDecimalDigit :=
  fun r _ hn => unitsDigit_eq_mod r hn

/-- The product that the tenths digit is rounded from is below 10. -/
theorem Frac.val_fraction_mulInt_lt_ten {m : Frac} (hm : 0 < m.den) (h : 0 ≤ m.val) :
    ((m.subInt (tempInt m)).mulInt 10).val < 10 := by
  have hfract : m.val - ⌊m.val⌋ < 1 := Int.fract_lt_one m.val
  rw [Frac.val_mulInt, Frac.val_fraction hm h, Int.cast_ofNat]
  linarith

/-- 10 is itself a value of `NUM.rnd`, so what is below 10 rounds to at most 10. -/
theorem round_le_ten (r : Config.Rounding) {x : Frac} (hx : 0 < x.den) (h : x.val ≤ 10) : (round r x).val ≤ 10 := by
  have hten : (⟨20, 2⟩ : Frac).val = 10 := by norm_num [Frac.val]
  calc (round r x).val ≤ (round r ⟨20, 2⟩).val := round_mono r hx Nat.two_pos (h.trans_eq hten.symm)
    _ = 10 := by rw [round_over_two r (by norm_num)]; norm_num

/-- Settles O28: the product is below 10, its rounding at most 10, and 10 and a half is cut to 10. -/
theorem tenthsDigitIsAtMostTen : Obligations.TenthsDigitIsAtMostTen := by
  intro r temp m hm
  obtain ⟨hden, hnonneg, -⟩ := magnitude_spec hm
  have hrounded := round_le_ten r (x := (m.subInt (tempInt m)).mulInt 10) hden
    (Frac.val_fraction_mulInt_lt_ten hden hnonneg).le
  have hdigit : (tenthsDigit r m : Int) < 11 := by
    rw [tenthsDigit_eq_floor r hm, Int.floor_lt]
    push_cast
    linarith
  omega

/-! ### A temperature outside the numeric range -/

/-- Without digits the low nibble of what is ORed into `F[4]` is 0 and the high one free (R143). -/
theorem tenthsByte_nibbles_of_none (r : Config.Rounding) (free : Nibble) {t : BitVec 32} (h : (f32val t).magnitude = none) :
    lo (tenthsByte r free t) = 0x0#4 ∧ hi (tenthsByte r free t) = free := by
  simp [tenthsByte, h]

theorem digitsByte_of_none (r : Config.Rounding) (free : Byte) {t : BitVec 32} (h : (f32val t).magnitude = none) :
    digitsByte r free t = free := by
  simp [digitsByte, h]

/-- A temperature without digits takes one draw of the free values (R143, assumption 7). -/
theorem State.update_draws_of_none (s : State) (hum : Byte) {temp : BitVec 32} (bok : Bool)
    (h : (f32val temp).magnitude = none) : (s.update hum temp bok).draws = s.draws + 1 := by
  simp [h]

/-- Settles O20: the update step stores the free values where the digits would stand, and the sign and the battery flag as always. -/
theorem outOfRangeTemperatureStillSends : Obligations.OutOfRangeTemperatureStillSends := by
  intro s hum temp bok hcfg hnone
  obtain ⟨h4, h5, h6⟩ := read_updateFrame_reading Config.numRnd (Config.freeDigits s.draws) (Config.freeTenths s.draws) s.hc
    hum temp bok s.mem
  obtain ⟨hbattery, hbatteryHi⟩ := battery_nibbles bok
  obtain ⟨htenthsLo, htenths⟩ := tenthsByte_nibbles_of_none Config.numRnd (Config.freeTenths s.draws) hnone
  refine ⟨(s.update hum temp bok).enter, exec_send hcfg hum temp bok, rfl, State.update_draws_of_none s hum bok hnone, ?_⟩
  rw [State.enter_mem, State.update_mem]
  refine ⟨?_, ?_, ?_, ?_⟩
  · rw [h5, digitsByte_of_none _ _ hnone]
  · rw [h4, hi_or, hbatteryHi, htenths, BitVec.zero_or]
  · rw [h4, lo_or, hbattery, htenthsLo, BitVec.or_zero]
  · rw [h6, lo_signByte]

/-! ### The humidity digits -/

/-- Settles O29: the tens of a byte are at most 25 and its units at most 9, so each fits what it is stored in. -/
theorem humidityDigitsArePacked : Obligations.HumidityDigitsArePacked := by
  intro h m
  have hbyte := h.isLt
  refine ⟨?_, by omega, ?_, ?_, fun a h6 h7 => ?_⟩
  · rw [read_setHumidity, if_neg (by decide), if_pos rfl, BitVec.toNat_ofNat]
    omega
  · rw [read_setHumidity, if_pos rfl, hi_pack, BitVec.toNat_ofNat]
    omega
  · rw [read_setHumidity, if_pos rfl, lo_pack]
  · rw [read_setHumidity, if_neg h6, if_neg h7]

end Sys2Proof.Machine
end

section
/-! PROOFS, spec/43_tx_sequencer.md R171 to R179 and spec/60_exceptions.md R212 to R217: what one clock edge does, by what it fetches
and by the sequencer's step it takes. -/
namespace Sys2Proof.Machine

open Safety

/-! ### An edge that fetches -/

theorem State.stuck_of_idle {s : State} (h : s.phase = .idle) : s.stuck = false := by
  simp [State.stuck, State.busy, h]

theorem fetch_command {s : State} (hidle : s.phase = .idle) (hcall : s.encoderCall = none) (hvalid : s.sample.cmdValid = true) :
    s.fetch = some (.command s.sample.cmdData) := by
  simp [State.fetch, hidle, hcall, hvalid]

theorem fetch_none {s : State} (hidle : s.phase = .idle) (hcall : s.encoderCall = none) (hvalid : s.sample.cmdValid = false) :
    s.fetch = none := by
  simp [State.fetch, hidle, hcall, hvalid]

/-- Settles O8: the definition of an edge that is no reset, not stuck, and fetches a word that decodes. -/
theorem stepRunsTheFetchedInstruction : Obligations.StepRunsTheFetchedInstruction := by
  intro s w i hrst hstuck hfetch hdecode
  simp only [step, hrst, hstuck, hfetch, hdecode, State.endEdge]
  cases exec i s.countTick.takeCall <;> rfl

/-- Settles O9: the word on the port is what is fetched, and there is no call to consume. -/
theorem commandIsAcceptedWhileIdle : Obligations.CommandIsAcceptedWhileIdle := by
  intro s t hrst hidle hcall hvalid hexec
  rw [stepRunsTheFetchedInstruction s _ _ hrst (State.stuck_of_idle hidle) (fetch_command hidle hcall hvalid) rfl,
    State.takeCall_eq (by simpa using hcall), hexec]

/-! ### An edge that fetches nothing -/

/-- At an edge that fetches nothing a tick may be counted, and the sequencer's step be taken (R216, R217). -/
theorem step_of_fetch_none {s : State} (hrst : s.sample.rst = false) (hstuck : s.stuck = false) (hfetch : s.fetch = none) :
    step s = .next s.countTick.settle.nextInputs := by
  simp [step, hrst, hstuck, hfetch, State.endEdge]

/-- Settles O36: neither the tick nor the sequencer acts. -/
theorem idleBlockStaysIdle : Obligations.IdleBlockStaysIdle := by
  intro s hrst hidle htmr hcall hvalid
  rw [step_of_fetch_none hrst (State.stuck_of_idle hidle) (fetch_none hidle hcall hvalid), State.countTick_eq htmr,
    State.settle_idle hidle]
  rfl

theorem State.countTick_of_no_tick {s : State} (h : s.sample.tickUs = false) : s.countTick = s := by
  simp [State.countTick, h]

theorem State.countTick_of_tick {s : State} (h : s.sample.tickUs = true) (hne : s.tmr ≠ 0#14) :
    s.countTick = { s with tmr := BitVec.ofNat 14 (s.tmr.toNat - 1) } := by
  have hsub : s.tmr - 1#14 = BitVec.ofNat 14 (s.tmr.toNat - 1) := by bv_omega
  simp [State.countTick, h, State.tick, hne, hsub]

/-- Settles O35: a timer that runs on keeps the sequencer waiting; one that the tick brings to 0 does not. -/
theorem ticksCountTheSegmentDown : Obligations.TicksCountTheSegmentDown := by
  intro s hrst hbusy hstuck
  rw [step_of_fetch_none hrst hstuck (fetch_busy hbusy)]
  refine ⟨fun htick hne => ?_, fun htick hlt => ?_, fun htick hone => ?_⟩
  · rw [State.countTick_of_no_tick htick, State.settle_running hne]
    rfl
  · rw [State.countTick_of_tick htick (by bv_omega), State.settle_running (by bv_omega)]
    rfl
  · rw [State.countTick_of_tick htick (by simp [hone]), hone, State.settle_expired rfl, State.nextInputs,
      State.sequencerStep_inputs]
    rfl

/-! ### The sequencer's step -/

theorem State.sequencerStep_nextInputs (s : State) : s.sequencerStep.nextInputs = s.nextInputs.sequencerStep := by
  rw [State.nextInputs, State.sequencerStep_inputs]
  exact (State.sequencerStep_setInputs s s.inputs.tail).symm

/-- Settles O34: each step is its composition of output primitives, written out. -/
theorem gapAndDoneSteps : Obligations.GapAndDoneSteps := by
  intro s
  refine ⟨fun hgap => ?_, fun hdone => ?_, State.sequencerStep_idle⟩
  · rw [State.sequencerStep_gap hgap]
    simp [State.gapStep, State.setLevel, State.loadTimer, levelEvent, Config.gapUs]
  · rw [State.sequencerStep_done hdone]
    rfl

/-- advance() writes the position and nothing else (R174). -/
theorem State.advance_frame (s : State) :
    s.advance = { s with seg := s.advance.seg, bitcnt := s.advance.bitcnt, phase := s.advance.phase } := by
  rcases State.advance_cases s with ⟨-, h⟩ | ⟨-, -, h⟩ | ⟨-, -, h⟩ <;> rw [h]

/-- A symbol step writes the level, the timer, the trace and the position, and nothing else (R173). -/
theorem State.symbolStep_frame (b : Bool) (s : State) :
    s.symbolStep b =
      { s with
        tx := segLevel b s.seg, tmr := BitVec.ofNat 14 (segTicks s.seg), trace := s.trace ++ segEvents b s.seg
        seg := (s.symbolStep b).seg, bitcnt := (s.symbolStep b).bitcnt, phase := (s.symbolStep b).phase } := by
  rw [State.symbolStep_eq]
  exact State.advance_frame _

/-- Settles O33: what a symbol step writes besides the position, and the three things that advance() can do to the position. -/
theorem symbolStepEmitsASegmentAndAdvances : Obligations.SymbolStepEmitsASegmentAndAdvances := by
  intro s hp level ticks t
  have ht : t = s.symbolStep (symbolBit s) := State.sequencerStep_symbol hp
  rw [ht, symbolsHere_eq]
  refine ⟨State.symbolStep_frame _ s, ?_⟩
  rcases State.symbolStep_cases (symbolBit s) s with
    ⟨hlt, hseg, hbitcnt, hphase⟩ | ⟨hlast, hlt, hseg, hbitcnt, hphase⟩ | ⟨hlast, hle, hseg, hbitcnt, hphase⟩
  · rw [hseg, hbitcnt, hphase]
    exact ⟨fun _ => ⟨Fin.val_add_one_of_lt' (by omega), rfl, rfl⟩, fun h2 => by omega⟩
  · rw [hseg, hbitcnt, hphase]
    exact ⟨fun h2 => by omega, fun _ => ⟨rfl, fun _ => ⟨State.bitcnt_succ_toNat s hlt, rfl⟩, fun h2 => by omega⟩⟩
  · rw [hseg, hbitcnt, hphase]
    exact ⟨fun h2 => by omega, fun _ => ⟨rfl, fun h2 => by omega, fun _ =>
      ⟨rfl, fun h => by rw [h]; rfl, fun h => by rw [h]; rfl, fun h => by rw [h]; rfl⟩⟩⟩

/-! ### The phase graph -/

/-- The successor of a phase in flight follows it on the graph (R171, R175). -/
theorem phaseStep_nextPhase (cfg rep : Bool) {p : Phase} (hp : p ≠ .idle) : PhaseStep cfg rep p (nextPhase p rep) := by
  cases p <;> cases rep <;> simp [PhaseStep, nextPhase] at hp ⊢

theorem phaseStep_symbolStep (cfg b : Bool) {s : State} (hbusy : s.phase ≠ .idle) :
    PhaseStep cfg s.rep s.phase (s.symbolStep b).phase := by
  rcases State.symbolStep_cases b s with ⟨-, -, -, h⟩ | ⟨-, -, -, -, h⟩ | ⟨-, -, -, -, h⟩ <;> rw [h]
  · exact .inl rfl
  · exact .inl rfl
  · exact phaseStep_nextPhase cfg s.rep hbusy

theorem phaseStep_sequencerStep (cfg : Bool) (s : State) : PhaseStep cfg s.rep s.phase s.sequencerStep.phase := by
  cases hp : s.phase with
  | idle => rw [State.sequencerStep_idle hp, hp]; exact .inl rfl
  | gap => rw [State.sequencerStep_gap hp]; exact phaseStep_nextPhase cfg s.rep (p := .gap) (by simp)
  | done => rw [State.sequencerStep_done hp]; exact phaseStep_nextPhase cfg s.rep (p := .done) (by simp)
  | _ => rw [State.sequencerStep_symbol (by simp [hp]), ← hp]; exact phaseStep_symbolStep cfg _ (by simp [hp])

theorem phaseStep_settle (cfg : Bool) (s : State) : PhaseStep cfg s.rep s.phase s.settle.phase := by
  unfold State.settle
  split
  · exact phaseStep_sequencerStep cfg s
  · exact .inl rfl

/-- Settles O37: a reset, an edge that fetches nothing, and every instruction but a SEND in a configured block leave the block idle. -/
theorem onlyAConfiguredSendLeavesIdle : Obligations.OnlyAConfiguredSendLeavesIdle := by
  intro s t h hidle hbusy
  rcases step_cases h with ⟨-, rfl⟩ | ⟨-, -, -, rfl⟩ | ⟨hrst, -, w, i, u, hfetch, hdecode, hexec, rfl⟩
  · exact absurd rfl hbusy
  · have hcount : s.countTick.phase = .idle := by simpa using hidle
    rw [State.settle_idle hcount] at hbusy
    exact absurd hcount hbusy
  · rcases exec_phase hexec with ⟨hphase, -⟩ | ⟨hum, temp, bok, rfl, hcfg, hu⟩
    · have hstay : u.phase = .idle := by simpa [hidle] using hphase
      rw [State.settle_idle hstay] at hbusy
      exact absurd hstay hbusy
    · obtain ⟨-, ⟨l, -, rfl⟩ | ⟨hcall, hvalid, rfl⟩⟩ := fetch_some hfetch
      · exact absurd hdecode decodeLine_ne_send
      · exact ⟨hrst, by simpa using hcfg, by rw [hu]; rfl, hcall, hvalid, hum, temp, bok, Except.ok.inj hdecode⟩

/-- Settles O38: from IDLE by `onlyAConfiguredSendLeavesIdle`; in flight by the sequencer's step. -/
theorem phaseMovesOnlyOnTheGraph : Obligations.PhaseMovesOnlyOnTheGraph := by
  intro s t hrst h
  by_cases hidle : s.phase = .idle
  · by_cases hstay : t.phase = .idle
    · exact .inl (hstay.trans hidle.symm)
    · obtain ⟨-, hcfg, hpreamble, -⟩ := onlyAConfiguredSendLeavesIdle s t h hidle hstay
      exact .inr (.inl ⟨hidle, hpreamble, hcfg⟩)
  · rcases step_cases h with ⟨hr, -⟩ | ⟨-, -, -, rfl⟩ | ⟨-, -, w, i, u, hfetch, -⟩
    · simp [hrst] at hr
    · simpa using phaseStep_settle s.cfg s.countTick
    · simp [fetch_busy hidle] at hfetch

end Sys2Proof.Machine
end

section
/-! PROOFS, spec/43_tx_sequencer.md R160 and spec/44_commands.md R196, R200: what a SEND writes, and that the bytes it transmits depend
on `HC`, `F[0..3]` and the operands only: each step of UPDATE writes a byte from its operands or from bytes written before it, so two
frames that agree below 4 come to agree below `FLEN`. -/
namespace Sys2Proof.Machine

/-- Settles O17: UPDATE, then the entry into PREAMBLE. -/
theorem sendEntersTheTransmission : Obligations.SendEntersTheTransmission := by
  intro s hum temp bok hcfg
  exact ⟨(s.update hum temp bok).enter, exec_send hcfg hum temp bok, rfl, fun hrange => if_pos hrange,
    read_updateFrame_frame _ _ _ s.hc hum temp bok s.mem⟩

/-! ### Frames that agree -/

/-- The frames `m` and `n` hold the same bytes below address `k`. -/
def AgreeBelow (k : Nat) (m n : Memory) : Prop := ∀ a, a < k → m.read a = n.read a

theorem AgreeBelow.setBattery {m n : Memory} (h : AgreeBelow 4 m n) (level : Bool) :
    AgreeBelow 5 (setBattery level m) (setBattery level n) := by
  intro a ha
  rw [read_setBattery, read_setBattery]
  split
  · rfl
  · exact h a (by omega)

/-- Where there are digits, the free values are not used (R143). -/
theorem digitsByte_congr_free (r : Config.Rounding) {fD fD' : Byte} {t : BitVec 32}
    (h : (f32val t).magnitude.isSome = true ∨ fD = fD') : digitsByte r fD t = digitsByte r fD' t := by
  rcases h with h | rfl
  · obtain ⟨m, hm⟩ := Option.isSome_iff_exists.1 h
    simp [digitsByte, hm]
  · rfl

theorem tenthsByte_congr_free (r : Config.Rounding) {fT fT' : Nibble} {t : BitVec 32}
    (h : (f32val t).magnitude.isSome = true ∨ fT = fT') : tenthsByte r fT t = tenthsByte r fT' t := by
  rcases h with h | rfl
  · obtain ⟨m, hm⟩ := Option.isSome_iff_exists.1 h
    simp [tenthsByte, hm]
  · rfl

theorem AgreeBelow.setTemperature {m n : Memory} (h : AgreeBelow 5 m n) (r : Config.Rounding) {fD fD' : Byte} {fT fT' : Nibble}
    {t : BitVec 32} (hD : digitsByte r fD t = digitsByte r fD' t) (hT : tenthsByte r fT t = tenthsByte r fT' t) :
    AgreeBelow 7 (setTemperature r fD fT t m) (setTemperature r fD' fT' t n) := by
  intro a ha
  rw [read_setTemperature, read_setTemperature, hD, hT, h 4 (by omega)]
  split_ifs with h4 h5 h6
  · rfl
  · rfl
  · rfl
  · exact h a (by omega)

theorem AgreeBelow.setHumidity {m n : Memory} (h : AgreeBelow 7 m n) (hum : Byte) :
    AgreeBelow 8 (setHumidity hum m) (setHumidity hum n) := by
  intro a ha
  rw [read_setHumidity, read_setHumidity, h 6 (by omega)]
  split_ifs with h6 h7
  · rfl
  · rfl
  · exact h a (by omega)

theorem AgreeBelow.checksumT {m n : Memory} (h : AgreeBelow 7 m n) : AgreeBelow 8 (checksumT m) (checksumT n) := by
  have hsum : nibbleSum m Config.ckNT = nibbleSum n Config.ckNT := nibbleSum_congr fun a ha => h a (Nat.lt_succ_of_lt ha)
  have hvalue : checksumValueT m = checksumValueT n := by
    rw [checksumValueT, checksumValueT, h 6 (by omega), hsum]
  intro a ha
  rw [read_checksumT, read_checksumT, hvalue, h 6 (by omega)]
  split_ifs with h7 h6
  · rfl
  · rfl
  · exact h a (by omega)

theorem AgreeBelow.checksumTH {m n : Memory} (h : AgreeBelow 8 m n) : AgreeBelow 9 (checksumTH m) (checksumTH n) := by
  have hvalue : checksumValueTH m = checksumValueTH n := by
    rw [checksumValueTH, checksumValueTH, nibbleSum_congr (k := Config.ckNTH) h]
  intro a ha
  rw [read_checksumTH, read_checksumTH, hvalue]
  split_ifs with h8
  · rfl
  · exact h a (by omega)

/-- UPDATE over frames that agree on `F[0..3]` leaves frames that agree on the bytes of the payload (R160). -/
theorem AgreeBelow.updateFrame {m n : Memory} (h : AgreeBelow 4 m n) (r : Config.Rounding) {fD fD' : Byte} {fT fT' : Nibble}
    (hc : Bool) (hum : Byte) {temp : BitVec 32} (bok : Bool) (hD : digitsByte r fD temp = digitsByte r fD' temp)
    (hT : tenthsByte r fT temp = tenthsByte r fT' temp) :
    AgreeBelow (flen hc) (updateFrame r fD fT hc hum temp bok m) (updateFrame r fD' fT' hc hum temp bok n) := by
  have htemperature := (h.setBattery bok).setTemperature r hD hT
  cases hc with
  | false => exact htemperature.checksumT
  | true => exact (htemperature.setHumidity hum).checksumTH

/-- The trace of a transmission reads the bytes of the payload only (R162, R170). -/
theorem AgreeBelow.xmitEvents_eq {m n : Memory} {hc : Bool} (h : AgreeBelow (flen hc) m n) : xmitEvents hc m = xmitEvents hc n := by
  have hpayload : payloadBytes hc m = payloadBytes hc n :=
    List.map_congr_left fun a ha => h a (List.mem_range.1 ha)
  rw [xmitEvents, xmitEvents, copyBits, copyBits, hpayload]

/-- Settles O22: the frames agree by `AgreeBelow.updateFrame`; the free values are equal where they are drawn. -/
theorem sendsLeaveNoResidue : Obligations.SendsLeaveNoResidue := by
  intro s₁ s₂ t₁ t₂ hum temp bok hcfg₁ hcfg₂ hhc hframe hdraws h₁ h₂
  rw [exec_send hcfg₁] at h₁
  rw [exec_send hcfg₂] at h₂
  cases h₁
  cases h₂
  have hagree := AgreeBelow.updateFrame hframe Config.numRnd s₁.hc hum bok
    (digitsByte_congr_free _ (hdraws.imp_right (congrArg Config.freeDigits)))
    (tenthsByte_congr_free _ (hdraws.imp_right (congrArg Config.freeTenths)))
  simp only [State.enter_mem, State.update_mem, State.enter_hc, State.update_hc, ← hhc]
  exact ⟨hagree, hagree.xmitEvents_eq⟩

end Sys2Proof.Machine
end

section
/-! PROOFS, spec/43_tx_sequencer.md R163, R168, R170: the trace of a transmission with its counts, and the bits that a payload starts
with. -/
namespace Sys2Proof.Machine

open Safety

/-- Two copies of six events a symbol, the gap and the final drive-low (R168). -/
theorem xmitEvents_length (hc : Bool) (m : Memory) : (xmitEvents hc m).length = if hc then 1155 else 1011 := by
  simp only [xmitEvents, List.length_append, bitsEvents_length, copyBits_length]
  cases hc <;> rfl

/-- The ticks of the two copies and of the gap (R168). -/
theorem ticksOf_xmitEvents (hc : Bool) (m : Memory) : ticksOf (xmitEvents hc m) = sendTicks hc := by
  simp only [xmitEvents, ticksOf_append, ticksOf_bitsEvents, copyBits_length]
  cases hc <;> rfl

theorem sendTicks_eq (hc : Bool) : sendTicks hc = if hc then 401408 else 352256 := by
  cases hc <;> rfl

/-- Settles O43: XMIT is one record update, and its trace is counted symbol by symbol. -/
theorem transmissionHasItsTraceAndCounts : Obligations.TransmissionHasItsTraceAndCounts :=
  fun s => ⟨s.xmit_eq, xmitEvents_length s.hc s.mem, (ticksOf_xmitEvents s.hc s.mem).trans (sendTicks_eq s.hc), sendTicks_eq s.hc⟩

/-- The payload's first sixteen bits are those of its first two bytes (R105, R106). -/
theorem take_dataBits_payloadBytes (hc : Bool) (m : Memory) :
    (dataBits (payloadBytes hc m)).take 16 = byteBits (m.read 0) ++ byteBits (m.read 1) := by
  cases hc <;> rfl

/-- Settles O48: the first two bytes of a configured block are its type constant, whose bits are written out. -/
theorem payloadStartsWithTheTypeBits : Obligations.PayloadStartsWithTheTypeBits := by
  intro s hinv hcfg
  obtain ⟨h0, h1⟩ := hinv.typed hcfg
  rw [take_dataBits_payloadBytes, h0, h1]
  cases s.hc <;> decide

end Sys2Proof.Machine
end

section
/-! PROOFS, spec/43_tx_sequencer.md R161 to R180: the small-step machine sends what the big-step rules say. Between two segments the
sequencer's step is `Due`; `Continues n s t` says that from the step due in `s` the machine runs `n` ticks to the step due in `t`. The
segments of a symbol, the symbols of a phase, the phases of a copy and the two copies are put together by `Continues.trans`. -/
namespace Sys2Proof.Machine

open Safety

/-! ### The bits of a phase -/

/-- The bit of symbol `k` of phase `p` over the frame `m` (R173). -/
def bitAt (p : Phase) (m : Memory) (k : Nat) : Bool :=
  match p with
  | .preamble => true
  | .payload => (m.read (k / 8)).getLsbD (k % 8)
  | _ => false

theorem symbolBit_eq_bitAt (s : State) : symbolBit s = bitAt s.phase s.mem s.bitcnt.toNat := by
  unfold symbolBit bitAt
  cases s.phase <;> rfl

/-- The bits of phase `p`, in air order (R174). -/
def phaseBits (p : Phase) (hc : Bool) (m : Memory) : List Bool := (List.range (phaseSymbols p hc)).map (bitAt p m)

@[simp] theorem phaseBits_length (p : Phase) (hc : Bool) (m : Memory) : (phaseBits p hc m).length = phaseSymbols p hc := by
  simp [phaseBits]

theorem phaseBits_preamble (hc : Bool) (m : Memory) : phaseBits .preamble hc m = List.replicate Config.preBits true := rfl

theorem phaseBits_postamble (hc : Bool) (m : Memory) :
    phaseBits .postamble hc m = List.replicate (if hc then Config.postBitsTH else Config.postBitsT) false := by
  cases hc <;> rfl

/-- Bit `k` of a serialised buffer is bit `k mod 8` of its byte `k div 8` (R106, R173). -/
theorem dataBits_map_range (f : Nat → Byte) (n : Nat) :
    dataBits ((List.range n).map f) = (List.range (8 * n)).map fun k => (f (k / 8)).getLsbD (k % 8) := by
  induction n with
  | zero => rfl
  | succ n ih =>
    have hbyte : ∀ j ∈ List.range 8, (f n).getLsbD j = (f ((8 * n + j) / 8)).getLsbD ((8 * n + j) % 8) := by
      intro j hj
      have hlt := List.mem_range.1 hj
      rw [show (8 * n + j) / 8 = n by omega, show (8 * n + j) % 8 = j by omega]
    rw [List.range_succ, List.map_append, dataBits_append, ih, Nat.mul_succ, List.range_add, List.map_append, List.map_map]
    congr 1
    simpa [dataBits, byteBits_eq_map_range] using hbyte

theorem phaseBits_payload (hc : Bool) (m : Memory) : phaseBits .payload hc m = dataBits (payloadBytes hc m) :=
  (dataBits_map_range m.read (flen hc)).symm

/-- A copy of the frame is its three phases one after the other (R165, R171). -/
theorem copyBits_eq_phaseBits (hc : Bool) (m : Memory) :
    copyBits hc m = phaseBits .preamble hc m ++ phaseBits .payload hc m ++ phaseBits .postamble hc m := by
  rw [phaseBits_preamble, phaseBits_payload, phaseBits_postamble, copyBits]

theorem sendTicks_eq_copies (hc : Bool) (m : Memory) :
    sendTicks hc = 2048 * (copyBits hc m).length + Config.gapUs + 2048 * (copyBits hc m).length := by
  rw [copyBits_length]
  cases hc <;> rfl

/-! ### The big-step states -/

/-- `s` with the symbols of `bs` sent and their ticks passed (R106). -/
def State.sent (bs : List Bool) (s : State) : State :=
  { s with tx := levelAfterBits s.tx bs, tmr := 0#14, trace := s.trace ++ bitsEvents bs }

theorem State.sent_sent (as bs : List Bool) (s : State) : (s.sent as).sent bs = s.sent (as ++ bs) := by
  simp [State.sent, levelAfterBits_append, bitsEvents_append]

theorem levelAfterBits_copyBits (l hc : Bool) (m : Memory) : levelAfterBits l (copyBits hc m) = true := by
  rw [copyBits, levelAfterBits_append]
  cases hc <;> rfl

theorem State.frameTx_eq_sent (s : State) : s.frameTx = s.sent (copyBits s.hc s.mem) := by
  rw [State.frameTx_eq, State.sent, levelAfterBits_copyBits]

/-- `s` at the start of symbol `k` of phase `p`. -/
def State.atSymbol (p : Phase) (k : BitVec 7) (s : State) : State := { s with phase := p, bitcnt := k, seg := 0 }

theorem State.sent_expired (s : State) (n : Nat) (bs : List Bool) : (s.expired n).sent bs = (s.sent bs).expired n := rfl

theorem State.sent_atSymbol (s : State) (p : Phase) (k : BitVec 7) (bs : List Bool) :
    (s.atSymbol p k).sent bs = (s.sent bs).atSymbol p k := rfl

theorem State.atSymbol_expired (s : State) (n : Nat) (p : Phase) (k : BitVec 7) :
    (s.expired n).atSymbol p k = (s.atSymbol p k).expired n := rfl

theorem State.atSymbol_atSymbol (s : State) (p q : Phase) (k l : BitVec 7) :
    (s.atSymbol p k).atSymbol q l = s.atSymbol q l := rfl

theorem State.expired_expired (s : State) (m n : Nat) : (s.expired m).expired n = s.expired (m + n) := by
  simp [State.expired]

/-! ### Symbol steps -/

/-- `s` at segment `k` of its symbol, with the events `es` sent, the line at level `l` after them, and their ticks passed. -/
def State.atSegment (k : Fin 3) (l : Bool) (es : List Event) (s : State) : State :=
  { s with seg := k, tx := l, tmr := 0#14, trace := s.trace ++ es }

theorem State.atSegment_atSegment (s : State) (k k' : Fin 3) (l l' : Bool) (es es' : List Event) :
    (s.atSegment k l es).atSegment k' l' es' = s.atSegment k' l' (es ++ es') := by
  simp [State.atSegment]

theorem State.atSegment_expired (s : State) (n : Nat) (k : Fin 3) (l : Bool) (es : List Event) :
    (s.expired n).atSegment k l es = (s.atSegment k l es).expired n := rfl

theorem State.advance_expired (s : State) (n : Nat) : (s.expired n).advance = s.advance.expired n := by
  unfold State.advance
  rw [apply_ite (State.expired · n), apply_ite (State.expired · n)]
  rfl

theorem State.advance_atSegment_of_lt (s : State) {k : Fin 3} (h : k.val < 2) (l : Bool) (es : List Event) :
    (s.atSegment k l es).advance = s.atSegment (k + 1) l es :=
  if_pos h

/-- After the last segment of a symbol that is not the phase's last (R174). -/
theorem State.advance_atSegment_two_of_lt {s : State} (h : s.bitcnt.toNat + 1 < phaseSymbols s.phase s.hc) (b : Bool) :
    (s.atSegment 2 (!b) (symbolEvents b)).advance = (s.sent [b]).atSymbol s.phase (s.bitcnt + 1#7) := by
  unfold State.advance
  rw [if_neg (by simp [State.atSegment]), if_pos (by exact h)]
  simp [State.atSegment, State.sent, State.atSymbol, levelAfterBits, bitsEvents]

/-- After the last segment of the phase's last symbol (R174). -/
theorem State.advance_atSegment_two_of_le {s : State} (h : phaseSymbols s.phase s.hc ≤ s.bitcnt.toNat + 1) (b : Bool) :
    (s.atSegment 2 (!b) (symbolEvents b)).advance = (s.sent [b]).atSymbol (nextPhase s.phase s.rep) 0#7 := by
  unfold State.advance
  rw [if_neg (by simp [State.atSegment]), if_neg (by exact Nat.not_lt.2 h)]
  simp [State.atSegment, State.sent, State.atSymbol, levelAfterBits, bitsEvents]

/-- Where a symbol step leaves the sequencer when the segment it loads has run out (R173). -/
theorem State.symbolStep_expired (b : Bool) (s : State) (n : Nat) :
    (s.symbolStep b).expired n = (s.atSegment s.seg (segLevel b s.seg) (segEvents b s.seg)).advance.expired n := by
  rw [State.symbolStep_eq, ← State.advance_expired, ← State.advance_expired]
  rfl

end Sys2Proof.Machine

namespace Sys2Proof.Safety

open Sys2Proof.Machine

/-! ### Due states -/

/-- In a state of the machine the sequencer is not stuck (assumption 10). -/
theorem Inv.not_stuck {s : State} (h : Inv s) : s.stuck = false := by
  rw [← Bool.not_eq_true, State.stuck_iff]
  rintro ⟨hbusy, hcfg | htmr | ⟨hle, hne⟩⟩
  · simp [h.configured hbusy] at hcfg
  · exact absurd h.tmr_range (Nat.not_le.2 htmr)
  · rcases (State.bitcntInRange_iff s).1 h.bitcnt_range with hlt | hzero
    · omega
    · exact hne hzero

/-- Within an edge, the segment in flight has run out and the sequencer's step is due; every edge to come brings a tick and no
reset. -/
structure Due (s : State) : Prop where
  midEdge : MidEdge s
  tmr_eq : s.tmr = 0#14
  ticking : s.Ticking

theorem MidEdge.nextInputs {s : State} (h : MidEdge s) : MidEdge s.nextInputs :=
  ⟨h.frame, h.idle, h.bitcnt_range, h.tmr_range, h.configured, h.gap, h.done, h.level, h.noCall⟩

theorem Inv.midEdge_expired {s : State} (h : Inv s) (n : Nat) : MidEdge (s.expired n) :=
  ⟨h.midEdge.frame, fun hp => ⟨(h.idle hp).1, rfl, (h.idle hp).2.2⟩, h.bitcnt_range, Nat.zero_le _, h.configured, h.gap, h.done,
    h.level, h.noCall⟩

/-- `n` ticks after the sequencer's step due in `s`, its step in `t` is due; the runs start and end right after these steps. -/
structure Continues (n : Nat) (s t : State) : Prop where
  due : Due t
  run : Host.Core.run core n s.sequencerStep = .next t.sequencerStep

theorem Continues.trans {m n : Nat} {s t u : State} (h : Continues m s t) (h' : Continues n t u) : Continues (m + n) s u :=
  ⟨h'.due, (run_add m n h.run).trans h'.run⟩

/-- A segment that the step due loads with `d` ticks runs out after `d` edges (R172, R217). -/
theorem Due.continues_segment {s : State} (h : Due s) {d : Nat} (hbusy : s.sequencerStep.phase ≠ .idle)
    (hd : s.sequencerStep.tmr.toNat = d) : Continues d s (s.sequencerStep.expired d) := by
  have hinv : Inv s.sequencerStep := State.settle_expired h.tmr_eq ▸ h.midEdge.inv_settle
  have hticking : s.sequencerStep.Ticking := h.ticking.of_inputs (n := 0) (by simp)
  obtain ⟨n, rfl⟩ : ∃ n, d = n + 1 := Nat.exists_eq_succ_of_ne_zero fun h0 =>
    hinv.waiting hbusy (BitVec.eq_of_toNat_eq (by simpa [h0] using hd))
  exact ⟨⟨hinv.midEdge_expired _, rfl, hticking.of_inputs rfl⟩, run_segment hbusy hinv.not_stuck hticking hd⟩

/-! ### Symbols -/

/-- One segment of a symbol. -/
theorem Due.continues_symbolSegment {s : State} (h : Due s)
    (hp : s.phase = .preamble ∨ s.phase = .payload ∨ s.phase = .postamble) {k : Fin 3} (hk : s.seg = k) :
    Continues (segTicks k) s
      ((s.atSegment k (segLevel (symbolBit s) k) (segEvents (symbolBit s) k)).advance.expired (segTicks k)) := by
  subst hk
  have hstep := State.sequencerStep_symbol hp
  obtain ⟨hbusy, -⟩ := State.symbolStep_position (symbolBit s) hp h.midEdge.bitcnt_range
  obtain ⟨-, hticks, -⟩ := segTicks_loaded s.seg
  rw [← State.symbolStep_expired, ← hstep]
  exact h.continues_segment (by rwa [hstep]) (by rwa [hstep, State.symbolStep_tmr])

/-- Three segments are SYMBOL(b) (R102): a symbol step at each, and advance() after the last. -/
theorem Due.continues_symbol {s : State} (h : Due s)
    (hp : s.phase = .preamble ∨ s.phase = .payload ∨ s.phase = .postamble) (hseg : s.seg = 0) :
    Continues 2048 s ((s.atSegment 2 (!symbolBit s) (symbolEvents (symbolBit s))).advance.expired 2048) := by
  have h0 := h.continues_symbolSegment hp hseg
  rw [State.advance_atSegment_of_lt _ (by decide)] at h0
  have h1 := h0.due.continues_symbolSegment hp (k := 1) rfl
  rw [State.advance_atSegment_of_lt _ (by decide)] at h1
  have h2 := h1.due.continues_symbolSegment hp (k := 2) rfl
  have hall := (h0.trans h1).trans h2
  simp only [State.atSegment_expired, State.advance_expired, State.expired_expired, State.atSegment_atSegment] at hall
  exact hall

/-- The symbols of a phase from the one at the position to the last (R174), by induction on their number. -/
theorem Due.continues_symbols {n : Nat} {s : State} (h : Due s)
    (hp : s.phase = .preamble ∨ s.phase = .payload ∨ s.phase = .postamble) (hseg : s.seg = 0)
    (hn : s.bitcnt.toNat + (n + 1) = phaseSymbols s.phase s.hc) :
    Continues (2048 * (n + 1)) s
      (((s.sent ((List.range' s.bitcnt.toNat (n + 1)).map (bitAt s.phase s.mem))).atSymbol
        (nextPhase s.phase s.rep) 0#7).expired (2048 * (n + 1))) := by
  induction n generalizing s with
  | zero =>
    have hlast := h.continues_symbol hp hseg
    rw [State.advance_atSegment_two_of_le (by omega), symbolBit_eq_bitAt] at hlast
    exact hlast
  | succ n ih =>
    have hlt : s.bitcnt.toNat + 1 < phaseSymbols s.phase s.hc := by omega
    have hcount := State.bitcnt_succ_toNat s hlt
    have hfirst := h.continues_symbol hp hseg
    rw [State.advance_atSegment_two_of_lt hlt, symbolBit_eq_bitAt] at hfirst
    have hrest := ih hfirst.due hp rfl
      (show (s.bitcnt + 1#7).toNat + (n + 1) = phaseSymbols s.phase s.hc by omega)
    have hall := hfirst.trans hrest
    simp only [State.sent_expired, State.sent_atSymbol, State.sent_sent, State.atSymbol_expired, State.atSymbol_atSymbol,
      State.expired_expired] at hall
    rw [show 2048 * (n + 1 + 1) = 2048 + 2048 * (n + 1) by omega, List.range'_succ, List.map_cons, ← hcount]
    exact hall

/-- A symbol phase from its start to its end sends its bits (R161, R162, R164). -/
theorem Due.continues_phase {s : State} (h : Due s) {p : Phase} (hphase : s.phase = p)
    (hp : p = .preamble ∨ p = .payload ∨ p = .postamble) (hbitcnt : s.bitcnt = 0#7) (hseg : s.seg = 0) :
    Continues (2048 * phaseSymbols p s.hc) s
      (((s.sent (phaseBits p s.hc s.mem)).atSymbol (nextPhase p s.rep) 0#7).expired (2048 * phaseSymbols p s.hc)) := by
  subst hphase
  obtain ⟨n, hn⟩ : ∃ n, phaseSymbols s.phase s.hc = n + 1 :=
    Nat.exists_eq_succ_of_ne_zero (by rcases hp with h | h | h <;> cases s.hc <;> rw [h] <;> decide)
  have hall := h.continues_symbols (n := n) hp hseg (by simp [hbitcnt, hn])
  rw [hbitcnt] at hall
  rw [phaseBits, hn, List.range_eq_range']
  exact hall

/-- A copy of the frame is FRAME_TX (R165). -/
theorem Due.continues_copy {s : State} (h : Due s) (hphase : s.phase = .preamble) (hbitcnt : s.bitcnt = 0#7)
    (hseg : s.seg = 0) :
    Continues (2048 * (copyBits s.hc s.mem).length) s
      ((s.frameTx.atSymbol (nextPhase .postamble s.rep) 0#7).expired (2048 * (copyBits s.hc s.mem).length)) := by
  have hpreamble := h.continues_phase hphase (.inl rfl) hbitcnt hseg
  have hpayload := hpreamble.due.continues_phase rfl (.inr (.inl rfl)) rfl rfl
  have hpostamble := hpayload.due.continues_phase rfl (.inr (.inr rfl)) rfl rfl
  have hall := (hpreamble.trans hpayload).trans hpostamble
  simp only [State.sent_expired, State.sent_atSymbol, State.sent_sent, State.atSymbol_expired, State.atSymbol_atSymbol,
    State.expired_expired] at hall
  rw [State.frameTx_eq_sent, copyBits_eq_phaseBits, List.length_append, List.length_append, phaseBits_length, phaseBits_length,
    phaseBits_length, Nat.mul_add, Nat.mul_add]
  exact hall

/-- The gap between the copies (R166, R176). -/
theorem Due.continues_gap {s : State} (h : Due s) (hphase : s.phase = .gap) :
    Continues Config.gapUs s (({ s.emitGap with phase := .preamble, rep := true } : State).expired Config.gapUs) := by
  have hgap := h.continues_segment (d := Config.gapUs) (by simp [State.sequencerStep_gap hphase])
    (by rw [State.sequencerStep_gap hphase]; rfl)
  rwa [State.sequencerStep_gap hphase] at hgap

/-- From the start of the first copy to the step that ends the send: the two copies, and the gap between them (R170). -/
theorem Due.continues_send {s : State} (h : Due s) (hphase : s.phase = .preamble) (hrep : s.rep = false)
    (hbitcnt : s.bitcnt = 0#7) (hseg : s.seg = 0) :
    Continues (sendTicks s.hc) s
      ((({ s.frameTx.emitGap.frameTx with rep := true } : State).atSymbol .done 0#7).expired (sendTicks s.hc)) := by
  have hfirst := h.continues_copy hphase hbitcnt hseg
  rw [hrep] at hfirst
  have hgap := hfirst.due.continues_gap rfl
  have hsecond := hgap.due.continues_copy rfl rfl rfl
  have hall := (hfirst.trans hgap).trans hsecond
  rw [sendTicks_eq_copies s.hc s.mem]
  simpa [State.frameTx_eq, State.emitGap, State.setLevel, State.wait, State.loadTimer, State.atSymbol, State.expired,
    nextPhase] using hall

/-- The edge that accepts a SEND runs UPDATE, enters the transmission and takes its first step (R179, R196). -/
theorem step_send {s : State} {hum : Byte} {temp : BitVec 32} {bok : Bool} (hinv : Inv s) (hidle : s.phase = .idle)
    (hcfg : s.cfg = true) (hrst : s.sample.rst = false) (hvalid : s.sample.cmdValid = true)
    (hdecode : decodeCommand s.sample.cmdData = .send hum temp bok) :
    step s = .next (s.update hum temp bok).enter.nextInputs.sequencerStep := by
  obtain ⟨-, htmr, -⟩ := hinv.idle hidle
  have hexec : exec (decodeCommand s.sample.cmdData) s.countTick = .next (s.update hum temp bok).enter := by
    rw [hdecode, State.countTick_eq htmr, exec_send hcfg]
  rw [commandIsAcceptedWhileIdle s _ hrst hidle hinv.noCall hvalid hexec, State.settle_expired rfl,
    State.sequencerStep_nextInputs]

/-- Settles O44: the acceptance edge takes the first step of the send, the send continues to its last step, and that one drives the
line low. -/
theorem sendRunsToTheWholeTransmission : Obligations.SendRunsToTheWholeTransmission := by
  intro s hum temp bok hinv hidle hcfg hrst hvalid hdecode hinputs
  obtain ⟨-, -, hrep, hbitcnt, hseg⟩ := hinv.idle hidle
  have hdue : Due (s.update hum temp bok).enter.nextInputs :=
    ⟨(hinv.midEdge.update_enter hcfg hum temp bok).nextInputs, rfl, hinputs⟩
  rw [Nat.add_comm, run_succ (step_send hinv hidle hcfg hrst hvalid hdecode)]
  refine (hdue.continues_send rfl rfl rfl rfl).run.trans ?_
  rw [State.sequencerStep_done rfl]
  simp [State.xmit, State.frameTx_eq, State.emitGap, State.doneStep, State.expired, State.atSymbol, State.setLevel, State.wait,
    State.loadTimer, State.enter, State.nextInputs, hidle, hrep, hbitcnt, hseg]

end Sys2Proof.Safety
end

section
/-! PROOFS, spec/60_exceptions.md R216, R219 and spec/70_reset_and_hazards.md R245: the ticks left of a send. A tick takes one off the
timer; the sequencer's step keeps the sum, since the segment it loads is one that was still to start. -/
namespace Sys2Proof.Safety

open Sys2Proof.Machine

/-! ### The ticks left at a position -/

/-- While a send is in flight the timer counts one for one. -/
theorem ticksLeft_setTmr {s : State} (hbusy : s.phase ≠ .idle) (d : BitVec 14) :
    ticksLeft { s with tmr := d } + s.tmr.toNat = ticksLeft s + d.toNat := by
  cases hp : s.phase with
  | idle => exact absurd hp hbusy
  | _ => simp only [ticksLeft, symbolsHere, hp]; omega

/-- The ticks left in a symbol phase: of the segment in flight, of the rest of its symbol, of the phase's other symbols, of the copy's
other phases, and of what follows the copy (R245). -/
theorem ticksLeft_symbol {s : State} (hp : s.phase = .preamble ∨ s.phase = .payload ∨ s.phase = .postamble) :
    ticksLeft s =
      s.tmr.toNat + symbolTicksFrom s.seg + 2048 * (phaseSymbols s.phase s.hc - (s.bitcnt.toNat + 1)) +
        ticksAfterPhase s.phase s.hc + ticksAfterCopy s.hc s.rep := by
  rw [← symbolsHere_eq]
  rcases hp with hp | hp | hp <;> simp [ticksLeft, hp]

theorem ticksLeft_gap {s : State} (hp : s.phase = .gap) : ticksLeft s = s.tmr.toNat + 8192 + copyTicks s.hc := by
  simp [ticksLeft, hp]

theorem ticksLeft_done {s : State} (hp : s.phase = .done) : ticksLeft s = s.tmr.toNat := by
  simp [ticksLeft, hp]

/-- The ticks of a phase's symbols and of the copy's phases after it, the first symbol at its start. -/
def ticksFromPhase (p : Phase) (hc : Bool) : Nat := 2048 * phaseSymbols p hc + ticksAfterPhase p hc

/-- At the start of a symbol phase. -/
theorem ticksLeft_start {s : State} (hp : s.phase = .preamble ∨ s.phase = .payload ∨ s.phase = .postamble)
    (hseg : s.seg = 0) (hbitcnt : s.bitcnt = 0#7) :
    ticksLeft s = s.tmr.toNat + ticksFromPhase s.phase s.hc + ticksAfterCopy s.hc s.rep := by
  have hpos : 0 < phaseSymbols s.phase s.hc := by rcases hp with h | h | h <;> cases s.hc <;> rw [h] <;> decide
  rw [ticksLeft_symbol hp, hseg, hbitcnt, show symbolTicksFrom 0 = 2048 from rfl, show (0#7).toNat = 0 from rfl, ticksFromPhase]
  omega

theorem ticksFromPhase_preamble (hc : Bool) : ticksFromPhase .preamble hc = copyTicks hc := by cases hc <;> rfl

theorem ticksFromPhase_payload (hc : Bool) : ticksFromPhase .payload hc = ticksAfterPhase .preamble hc := by cases hc <;> rfl

theorem ticksFromPhase_postamble (hc : Bool) : ticksFromPhase .postamble hc = ticksAfterPhase .payload hc := by cases hc <;> rfl

/-- At the start of the phase that follows a symbol phase what is left is what comes after that phase (R175, R245). -/
theorem ticksLeft_nextPhase {s : State} {p : Phase} (hp : p = .preamble ∨ p = .payload ∨ p = .postamble)
    (hphase : s.phase = nextPhase p s.rep) (hseg : s.seg = 0) (hbitcnt : s.bitcnt = 0#7) :
    ticksLeft s = s.tmr.toNat + ticksAfterPhase p s.hc + ticksAfterCopy s.hc s.rep := by
  rcases hp with rfl | rfl | rfl
  · rw [ticksLeft_start (.inr (.inl hphase)) hseg hbitcnt, hphase, ← ticksFromPhase_payload]
    rfl
  · rw [ticksLeft_start (.inr (.inr hphase)) hseg hbitcnt, hphase, ← ticksFromPhase_postamble]
    rfl
  · cases hrep : s.rep with
    | false =>
      rw [hrep] at hphase
      rw [ticksLeft_gap hphase]
      exact Nat.add_assoc _ _ _
    | true =>
      rw [hrep] at hphase
      exact ticksLeft_done hphase

theorem symbolTicksFrom_eq {k : Fin 3} (h : k.val < 2) : symbolTicksFrom k = segTicks k + symbolTicksFrom (k + 1) := by
  revert k
  decide

/-! ### The parts of an edge -/

theorem ticksLeft_countTick {s : State} (hbusy : s.phase ≠ .idle) (hne : s.tmr ≠ 0#14) :
    ticksLeft s = ticksLeft s.countTick + (if s.sample.tickUs then 1 else 0) := by
  cases htick : s.sample.tickUs with
  | false => rw [State.countTick_of_no_tick htick]; rfl
  | true =>
    have hcount := ticksLeft_setTmr hbusy (BitVec.ofNat 14 (s.tmr.toNat - 1))
    rw [State.countTick_of_tick htick hne, if_pos rfl]
    have hpos : 0 < s.tmr.toNat := by bv_omega
    have hlt := s.tmr.isLt
    rw [BitVec.toNat_ofNat, Nat.mod_eq_of_lt (by omega)] at hcount
    omega

/-- A symbol step loads its segment into the timer (R173, R174). -/
theorem ticksLeft_symbolStep {s : State} (htmr : s.tmr = 0#14)
    (hp : s.phase = .preamble ∨ s.phase = .payload ∨ s.phase = .postamble) (b : Bool) :
    ticksLeft (s.symbolStep b) = ticksLeft s := by
  have hloaded : (s.symbolStep b).tmr.toNat = segTicks s.seg := by
    obtain ⟨-, hticks, -⟩ := segTicks_loaded s.seg
    rwa [State.symbolStep_tmr]
  have hdue : s.tmr.toNat = 0 := by rw [htmr]; rfl
  rcases State.symbolStep_cases b s with
    ⟨hlt, hseg, hbitcnt, hphase⟩ | ⟨hlast, hlt, hseg, hbitcnt, hphase⟩ | ⟨hlast, hle, hseg, hbitcnt, hphase⟩
  · have hsegment := symbolTicksFrom_eq hlt
    rw [ticksLeft_symbol hp, ticksLeft_symbol (by rwa [hphase]), hloaded, hseg, hbitcnt, hphase, State.symbolStep_hc,
      State.symbolStep_rep]
    omega
  · have htwo : s.seg = 2 := Fin.ext hlast
    rw [ticksLeft_symbol hp, ticksLeft_symbol (by rwa [hphase]), hloaded, hseg, hbitcnt, hphase, State.symbolStep_hc,
      State.symbolStep_rep, State.bitcnt_succ_toNat s hlt, htwo,
      show segTicks 2 = 512 from rfl, show symbolTicksFrom 2 = 512 from rfl,
      show symbolTicksFrom 0 = 2048 from rfl]
    omega
  · have hnext := ticksLeft_nextPhase hp (by rw [hphase, State.symbolStep_rep]) hseg hbitcnt
    have htwo : s.seg = 2 := Fin.ext hlast
    rw [hloaded, State.symbolStep_hc, State.symbolStep_rep, htwo, show segTicks 2 = 512 from rfl] at hnext
    rw [ticksLeft_symbol hp, htwo, show symbolTicksFrom 2 = 512 from rfl]
    omega

/-- The sequencer's step, taken where it is due, keeps the ticks left (R172). -/
theorem MidEdge.ticksLeft_settle {s : State} (h : MidEdge s) : ticksLeft s.settle = ticksLeft s := by
  by_cases htmr : s.tmr = 0#14
  · rw [State.settle_expired htmr]
    cases hp : s.phase with
    | idle => rw [State.sequencerStep_idle hp]
    | gap =>
      rw [State.sequencerStep_gap hp]
      obtain ⟨-, hseg⟩ := h.gap hp
      have hbitcnt : s.bitcnt = 0#7 := h.bitcnt_eq_zero (by simp [hp, phaseSymbols])
      rw [ticksLeft_start (s := s.gapStep) (.inl rfl) hseg hbitcnt, ticksLeft_gap hp, htmr, State.gapStep_phase,
        ticksFromPhase_preamble, State.gapStep_rep]
      show 8192 + copyTicks s.hc + 0 = 0 + 8192 + copyTicks s.hc
      omega
    | done => rw [State.sequencerStep_done hp, ticksLeft_done hp, htmr]; rfl
    | preamble => rw [State.sequencerStep_symbol (.inl hp)]; exact ticksLeft_symbolStep htmr (.inl hp) _
    | payload => rw [State.sequencerStep_symbol (.inr (.inl hp))]; exact ticksLeft_symbolStep htmr (.inr (.inl hp)) _
    | postamble => rw [State.sequencerStep_symbol (.inr (.inr hp))]; exact ticksLeft_symbolStep htmr (.inr (.inr hp)) _
  · rw [State.settle_running htmr]

/-- A send ends where no tick is left: in flight the timer runs. -/
theorem Inv.idle_iff_ticksLeft_eq_zero {s : State} (h : Inv s) : s.phase = .idle ↔ ticksLeft s = 0 := by
  refine ⟨fun hidle => by simp [ticksLeft, hidle], fun hzero => ?_⟩
  by_contra hbusy
  have hcount := ticksLeft_setTmr hbusy 0#14
  have hne := h.waiting hbusy
  bv_omega

theorem sendTicks_eq_copyTicks (hc : Bool) : sendTicks hc = copyTicks hc + (8192 + copyTicks hc) := by cases hc <;> rfl

/-- At the entry into a transmission both copies and the gap are left (R168, R179). -/
theorem ticksLeft_enter (s : State) : ticksLeft s.enter = sendTicks s.hc := by
  rw [ticksLeft_start (.inl rfl) rfl rfl, State.enter_phase, ticksFromPhase_preamble, sendTicks_eq_copyTicks]
  show 0 + copyTicks s.hc + (8192 + copyTicks s.hc) = copyTicks s.hc + (8192 + copyTicks s.hc)
  omega

/-- Settles O45: at an edge in flight the tick is counted and the sequencer's step keeps what is left; the edge of the acceptance
enters the transmission. -/
theorem everyTickBringsTheEndOneTickNearer : Obligations.EveryTickBringsTheEndOneTickNearer := by
  refine ⟨fun s t hinv hrst hbusy h => ?_, fun s t hinv hidle h hbusy => ?_⟩
  · refine ⟨?_, (everyStepKeepsTheInvariant s t hinv h).idle_iff_ticksLeft_eq_zero⟩
    rcases step_cases h with ⟨hr, -⟩ | ⟨-, -, -, rfl⟩ | ⟨-, -, w, i, u, hfetch, -⟩
    · simp [hrst] at hr
    · rw [ticksLeft_countTick hbusy (hinv.waiting hbusy), ← hinv.midEdge.countTick.ticksLeft_settle]
      rfl
    · simp [fetch_busy hbusy] at hfetch
  · obtain ⟨hrst, hcfg, -, -, hvalid, hum, temp, bok, hdecode⟩ := onlyAConfiguredSendLeavesIdle s t h hidle hbusy
    rw [step_send hinv hidle hcfg hrst hvalid hdecode] at h
    cases h
    have hkept := (hinv.midEdge.update_enter hcfg hum temp bok).nextInputs.ticksLeft_settle
    rw [State.settle_expired rfl] at hkept
    exact hkept.trans (ticksLeft_enter _)

end Sys2Proof.Safety
end

section
/-! PROOFS, spec/44_commands.md R191 to R199: what the edge that accepts a configuration command writes. A write of the byte that
stands at an address leaves a canonical frame as it is, so a command leaves alone a frame that holds its operands already. -/
namespace Sys2Proof.Machine

/-! ### What the commands answer -/

theorem exec_configure (pin channel ident : Byte) (hc : Bool) (s : State) :
    exec (.configure pin channel ident hc) s = .next { s with
      pinsel := pin, hc := hc, cfg := true, mem := setIdent ident (setChannel channel (setType (typeBytes hc) s.mem)) } := rfl

theorem exec_setPin (pin : Byte) (s : State) : exec (.setPin pin) s = .next { s with pinsel := pin } := rfl

theorem exec_setHc (hc : Bool) (s : State) :
    exec (.setHc hc) s = .next { s with hc := hc, mem := setType (typeBytes hc) s.mem } := rfl

theorem exec_setIdch (ident channel : Byte) (s : State) :
    exec (.setIdch ident channel) s = .next { s with mem := setChannel channel (setIdent ident s.mem) } := rfl

theorem exec_send_unconfigured {s : State} (h : s.cfg = false) (hum : Byte) (temp : BitVec 32) (bok : Bool) :
    exec (.send hum temp bok) s = .next s :=
  if_neg (by simp [h])

/-- The type constants of the two variants (spec/00_scope.md R5). -/
theorem typeBytes_eq (hc : Bool) : typeBytes hc = (if hc then 0x1A#8 else 0xEA#8, if hc then 0x2D#8 else 0x4C#8) := by
  cases hc <;> rfl

/-- Settles O11: `execNop` answers the state it is given. -/
theorem nopChangesNothing : Obligations.NopChangesNothing :=
  ⟨fun _ => rfl, fun _ => decodeCommand_nop⟩

/-- Settles O13: the three setters write below address 4. -/
theorem configureWritesItsOperands : Obligations.ConfigureWritesItsOperands := by
  refine ⟨fun _ => decodeCommand_configure, fun s pin channel ident hc => ⟨_, exec_configure pin channel ident hc s, rfl, ?_⟩⟩
  refine ⟨by simp [typeBytes_eq], by simp [typeBytes_eq], by simp, by simp, fun a ha => ?_⟩
  have hkept : a ≠ 0 ∧ a ≠ 1 ∧ a ≠ 2 ∧ a ≠ 3 := by omega
  simp [hkept]

/-- Settles O14: the command has one write, that of `PINSEL`. -/
theorem setPinWritesThePinSelectorOnly : Obligations.SetPinWritesThePinSelectorOnly :=
  ⟨fun _ => decodeCommand_setPin, fun s pin => exec_setPin pin s⟩

/-- Settles O15: SET_TYPE writes below address 2. -/
theorem setHcRewritesTheTypeBytes : Obligations.SetHcRewritesTheTypeBytes := by
  refine ⟨fun _ => decodeCommand_setHc, fun s hc => ⟨_, exec_setHc hc s, rfl, ?_⟩⟩
  refine ⟨by simp [typeBytes_eq], by simp [typeBytes_eq], fun a ha => ?_⟩
  have hkept : a ≠ 0 ∧ a ≠ 1 := by omega
  simp [hkept]

/-- Settles O16: the two setters write one address each. -/
theorem setIdchWritesIdAndChannel : Obligations.SetIdchWritesIdAndChannel := by
  refine ⟨fun _ => decodeCommand_setIdch, fun s ident channel => ⟨_, exec_setIdch ident channel s, rfl, ?_⟩⟩
  exact ⟨by simp, by simp, fun a h2 h3 => by simp [h2, h3]⟩

/-- Settles O18: with `CFG = 0` the command takes the branch that writes nothing. -/
theorem sendBeforeConfigureDoesNothing : Obligations.SendBeforeConfigureDoesNothing :=
  fun _ hum temp bok hcfg => exec_send_unconfigured hcfg hum temp bok

/-! ### Writes that change nothing, and writes in either order -/

theorem Memory.write_eq_self {m : Memory} (h : m.wf) {a : FrameAddr} {v : Byte} (hread : m.read a = v) : m.write a v = m :=
  Memory.ext_read (Memory.wf_write h a v) h fun b => by
    rw [Memory.read_write]
    split
    case isTrue hb => rw [hb, hread]
    case isFalse => rfl

theorem Memory.write_comm {m : Memory} (h : m.wf) {a b : FrameAddr} (hab : a.val ≠ b.val) (v w : Byte) :
    (m.write a v).write b w = (m.write b w).write a v :=
  Memory.ext_read (Memory.wf_write (Memory.wf_write h a v) b w) (Memory.wf_write (Memory.wf_write h b w) a v) fun c => by
    simp only [Memory.read_write]
    by_cases ha : c = a.val
    · simp [ha, hab]
    · simp [ha]

theorem setType_eq_self {b : Byte × Byte} {m : Memory} (h : m.wf) (h0 : m.read 0 = b.1) (h1 : m.read 1 = b.2) :
    setType b m = m := by
  rw [setType, Memory.write_eq_self h h0, Memory.write_eq_self h h1]

theorem setChannel_eq_self {c : Byte} {m : Memory} (h : m.wf) (h2 : m.read 2 = c) : setChannel c m = m :=
  Memory.write_eq_self h h2

theorem setIdent_eq_self {d : Byte} {m : Memory} (h : m.wf) (h3 : m.read 3 = d) : setIdent d m = m :=
  Memory.write_eq_self h h3

/-- The ID and the channel are different bytes, "so their order is immaterial" (R195). -/
theorem setChannel_setIdent_comm {m : Memory} (h : m.wf) (c d : Byte) :
    setChannel c (setIdent d m) = setIdent d (setChannel c m) :=
  Memory.write_comm h (by decide) d c

/-! ### A configuration command once more -/

theorem exec_configure_again {s t : State} (hwf : s.mem.wf) {pin channel ident : Byte} {hc : Bool}
    (h : exec (.configure pin channel ident hc) s = .next t) : exec (.configure pin channel ident hc) t = .next t := by
  cases h
  have hafter := setIdent_wf ident (setChannel_wf channel (setType_wf (typeBytes hc) hwf))
  rw [exec_configure, setType_eq_self hafter (by simp) (by simp), setChannel_eq_self hafter (by simp),
    setIdent_eq_self hafter (by simp)]

theorem exec_setHc_again {s t : State} (hwf : s.mem.wf) {hc : Bool} (h : exec (.setHc hc) s = .next t) :
    exec (.setHc hc) t = .next t := by
  cases h
  rw [exec_setHc, setType_eq_self (setType_wf (typeBytes hc) hwf) (by simp) (by simp)]

theorem exec_setIdch_again {s t : State} (hwf : s.mem.wf) {ident channel : Byte}
    (h : exec (.setIdch ident channel) s = .next t) : exec (.setIdch ident channel) t = .next t := by
  cases h
  have hafter := setChannel_wf channel (setIdent_wf ident hwf)
  rw [exec_setIdch, setIdent_eq_self hafter (by simp), setChannel_eq_self hafter (by simp)]

/-- Settles O23: after a command the frame holds the bytes it writes; and CONFIGURE and SET_IDCH write the same two bytes in
opposite orders. -/
theorem configurationIsIdempotent : Obligations.ConfigurationIsIdempotent := by
  constructor
  · rintro i s t hwf (⟨pin, channel, ident, hc, rfl⟩ | ⟨pin, rfl⟩ | ⟨hc, rfl⟩ | ⟨ident, channel, rfl⟩) h
    · exact exec_configure_again hwf h
    · cases h
      exact exec_setPin pin _
    · exact exec_setHc_again hwf h
    · exact exec_setIdch_again hwf h
  · intro pin channel ident hc s s₁ s₂ s₃ hwf h₁ h₂ h₃
    cases h₁
    cases h₂
    cases h₃
    rw [exec_configure, setChannel_setIdent_comm (setType_wf (typeBytes hc) hwf)]

end Sys2Proof.Machine
end

section
/-! PROOFS, spec/44_commands.md R190 and spec/70_reset_and_hazards.md R239: the parts of an edge in flight read `rst` and `tick_us` of
the input ports, and not the command port. -/
namespace Sys2Proof.Machine

/-- `s` with other levels of `cmd_valid` and `cmd_data` at the coming edge. -/
def State.offer (valid : Bool) (word : CommandWord) (s : State) : State :=
  { s with inputs := { s.sample with cmdValid := valid, cmdData := word } :: s.inputs.tail }

@[simp] theorem State.offer_rst (valid : Bool) (word : CommandWord) (s : State) :
    (s.offer valid word).sample.rst = s.sample.rst := rfl

@[simp] theorem State.offer_stuck (valid : Bool) (word : CommandWord) (s : State) : (s.offer valid word).stuck = s.stuck := rfl

@[simp] theorem State.offer_resetEdge (valid : Bool) (word : CommandWord) (s : State) :
    (s.offer valid word).resetEdge = s.resetEdge := rfl

/-- The tick reads `tick_us` only. -/
theorem State.countTick_setInputs {s : State} {l : List Inputs} (h : (l.headD Inputs.quiet).tickUs = s.sample.tickUs) :
    ({ s with inputs := l } : State).countTick = { s.countTick with inputs := l } := by
  have htick : ({ s with inputs := l } : State).sample.tickUs = s.sample.tickUs := h
  simp only [State.countTick, htick, State.tick_eq]
  split <;> rfl

/-- What an edge does besides the reset and the fetch is the same for every level of the command port. -/
theorem State.offer_countTick_settle_nextInputs (valid : Bool) (word : CommandWord) (s : State) :
    (s.offer valid word).countTick.settle.nextInputs = s.countTick.settle.nextInputs := by
  have hcount : (s.offer valid word).countTick = { s.countTick with inputs := (s.offer valid word).inputs } :=
    State.countTick_setInputs rfl
  rw [hcount, State.settle_setInputs, State.nextInputs, State.nextInputs, State.settle_inputs, State.countTick_inputs]
  rfl

/-- Settles O10: an edge in flight fetches nothing (`step_busy`). -/
theorem commandWaitsWhileBusy : Obligations.CommandWaitsWhileBusy := by
  intro s valid word hbusy
  change step (s.offer valid word) = step s
  rw [step_busy hbusy, step_busy (s := s.offer valid word) hbusy, State.offer_countTick_settle_nextInputs, State.offer_rst,
    State.offer_stuck, State.offer_resetEdge]

end Sys2Proof.Machine
end

section
/-! PROOFS, spec/60_exceptions.md R210: no edge of the machine stops. Three things could stop one: a stuck sequencer position, which
`Inv.not_stuck` shuts out; a fetched word that stands for no row, which only a line word can be; and an instruction that does not
complete, which there is none of (`exec_next`). -/
namespace Sys2Proof.Safety

open Sys2Proof.Machine

/-- A reset edge answers the reset state, whatever else is due at it (R212, R230). -/
theorem step_of_reset {s : State} (hrst : s.sample.rst = true) : step s = .next s.resetEdge := if_pos hrst

/-- The machine fetches host commands only, and every command word stands for an instruction (R71, R73). -/
theorem Inv.decode_fetch {s : State} (h : Inv s) {w : FetchWord} (hfetch : s.fetch = some w) : ∃ i, decode w = .ok i := by
  obtain ⟨-, ⟨l, hcall, -⟩ | ⟨-, -, rfl⟩⟩ := fetch_some hfetch
  · rw [h.noCall] at hcall
    cases hcall
  · exact ⟨decodeCommand s.sample.cmdData, rfl⟩

/-- Settles O41: a reset edge, an edge that fetches nothing, and an edge that runs one instruction each answer a next state. -/
theorem noStateOfTheMachineStops : Obligations.NoStateOfTheMachineStops := by
  intro s h
  cases hrst : s.sample.rst with
  | true => exact ⟨_, step_of_reset hrst⟩
  | false =>
    cases hfetch : s.fetch with
    | none => exact ⟨_, step_of_fetch_none hrst h.not_stuck hfetch⟩
    | some w =>
      obtain ⟨i, hdecode⟩ := h.decode_fetch hfetch
      obtain ⟨t, hexec⟩ := exec_next i s.countTick.takeCall
      exact ⟨t.settle.nextInputs, by rw [stepRunsTheFetchedInstruction s w i hrst h.not_stuck hfetch hdecode, hexec]⟩

end Sys2Proof.Safety
end

section
/-! PROOFS, spec/70_reset_and_hazards.md R230 to R232: the trace after a reset edge, by what the edge interrupts. The registers are
those of `State.resetEdge_allRegistersZero`. -/
namespace Sys2Proof.Machine

/-- The ticks of the last wait that did pass are kept, and nothing of a wait of which none passed (R232; assumption 6). -/
theorem cutShort_append_wait (left : Nat) (es : List Event) (d : Nat) :
    cutShort left (es ++ [.W d]) = es ++ (if left < d then [.W (d - left)] else []) := by
  simp [cutShort]

theorem State.resetTrace_idle_low {s : State} (hidle : s.phase = .idle) (hlow : s.tx = false) : s.resetTrace = s.trace := by
  simp [State.resetTrace, hidle, hlow]

theorem State.resetTrace_busy {s : State} (hbusy : s.phase ≠ .idle) :
    s.resetTrace = cutShort s.tmr.toNat s.trace ++ [.L] := if_pos hbusy

/-- Settles O3: the reset wins over all that is due at the edge (`step_of_reset`), and the trace follows the two cases of
`State.resetTrace` named in R232. -/
theorem resetEdgeClearsTheBlock : Obligations.ResetEdgeClearsTheBlock := by
  intro s hrst
  refine ⟨s.resetEdge, Safety.step_of_reset hrst, s.resetEdge_allRegistersZero, Memory.wf_empty, ?idle, ?inFlight⟩
  case idle => exact State.resetTrace_idle_low
  case inFlight =>
    intro es d hbusy htrace
    rw [State.resetEdge_trace, State.resetTrace_busy hbusy, htrace, cutShort_append_wait]

end Sys2Proof.Machine
end
